-- ==== Sys2Proof/Word.lean ====
section
/-!
DEFINITION. The widths of values of the S-AES CORE: 00_scope.md R5, R6, R7; 10_state.md R22.
-/

namespace Sys2Proof

/-- "Nibble: a 4-bit unsigned value" (00_scope.md R5, R12). -/
abbrev Nibble := BitVec 4

/-- A byte: only the key schedule works on bytes (00_scope.md R12). -/
abbrev Byte := BitVec 8

/-- A 16-bit word: a Block, a Key, a round key or an operand field (00_scope.md R5, R12). -/
abbrev Word := BitVec 16

/-- The opcode field, 5 bits (00_scope.md R6, 30_encoding.md R71). -/
abbrev Opcode := BitVec 5

/-- The 37-bit command word (30_encoding.md R70). -/
abbrev CmdWord := BitVec 37

end Sys2Proof
end

