-- ==== Sys2Proof/Machine/State.lean ====
section
/-!
DEFINITION. The state of one instance of the core, as plain data: the eight elements of 10_state.md R20, and the pin
levels the host has yet to drive (70_reset_and_hazards.md R270). Also the ports of R32 as data, the fault causes of
60_exceptions.md R230, the state after reset (R33) and the reasons a step can stop.
-/

namespace Sys2Proof.Machine

/-- The three fault causes of 60_exceptions.md R230. A cause is taken: it gives a next state, never a stop. -/
inductive Cause where
  /-- Code 1: the opcode is reserved (R231). -/
  | illegalOp
  /-- Code 2: a restricted operand is out of its range (R232). -/
  | operandRange
  /-- Code 3: `ENC` or `DEC` while `KV = 0` (R233). -/
  | noKey
deriving DecidableEq, Repr

/-- A round-key sequence `[K0, K1, K2]` (00_scope.md R5, R12). -/
structure RoundKeys where
  k0 : Word
  k1 : Word
  k2 : Word
deriving DecidableEq, Repr

/-- The levels of the input ports of 10_state.md R32 in one step. `clk` is the step itself. -/
structure Pins where
  rst : Bool
  cmdValid : Bool
  cmdOp : Opcode
  cmdA : Word
  cmdB : Word
deriving DecidableEq, Repr

/-- The input of one step (10_state.md R30). -/
inductive Input where
  | reset
  | idle
  | cmd (w : CmdWord)
deriving DecidableEq, Repr

/-- The output ports of 10_state.md R32. A port whose level R29 leaves unspecified shows `none`. -/
structure OutPorts where
  y : Option Word
  yv : Bool
  rk0 : Option Word
  rk1 : Option Word
  rk2 : Option Word
  kv : Bool
  fault : Bool
  fcode : BitVec 2
deriving DecidableEq, Repr

/-- The architectural state of one instance (10_state.md R20), and `pending`, the model's own field. -/
structure State where
  /-- Round key K0 (R23). -/
  rk0 : Word
  /-- Round key K1 (R23). -/
  rk1 : Word
  /-- Round key K2 (R23). -/
  rk2 : Word
  /-- 1 when RK0, RK1, RK2 hold a round-key sequence (R27). -/
  kv : Bool
  /-- The result of the last command that produced one (R24). -/
  y : Word
  /-- 1 when Y holds a result (R27). -/
  yv : Bool
  /-- 1 after a contract violation; sticky (R27). -/
  fault : Bool
  /-- The cause of the fault (R28). -/
  fcode : BitVec 2
  /-- The pin levels of the steps to come, oldest first: the host's finite list of inputs (R270). DESIGN CHOICE
  (safe), log entry 2: the host is no part of the core, and the step reads its inputs from here. -/
  pending : List Pins
deriving DecidableEq, Repr

/-- ResetState (10_state.md R33): KV, YV, FAULT and FCODE are 0. The spec gives RK0, RK1, RK2 and Y no value; DESIGN
CHOICE (unsafe), log entry 1: they hold 0, which no rule reads while KV and YV are 0. No input is pending (DESIGN
CHOICE, safe, log entry 3). -/
def State.reset : State where
  rk0 := 0
  rk1 := 0
  rk2 := 0
  kv := false
  y := 0
  yv := false
  fault := false
  fcode := 0
  pending := []

/-- Why the machine would stop with a fault: never. "The step is a total function: every (state, input) pair has exactly
one next state; the core never hangs" (10_state.md R30), and the spec's own faults are taken as next states
(60_exceptions.md R236). Nothing raises a value of this type, so there is none; safe (DEDUCED, log entry 14). -/
inductive Fault where
deriving DecidableEq, Repr

/-- Why the machine would give an instruction no meaning. -/
inductive Refusal where
  /-- An arm of `exec` that has no meaning yet. Raised by no arm of this model: all 19 have one. Safe. -/
  | notModelled (mnemonic : String)
deriving DecidableEq, Repr

/-- What one step answers. -/
abbrev Answer := Host.Outcome State Fault Refusal

end Sys2Proof.Machine
end

