-- ==== Sys2Proof/Machine/Flags.lean ====
section
/-!
DEFINITION. The flags KV, YV and FAULT and the status field FCODE (10_state.md R27, R28): the cause codes, and the one
place each of them is set. No command computes a condition code (R27). Only reset clears them (`State.reset`).
-/

namespace Sys2Proof.Machine

/-- The code of a cause in FCODE (10_state.md R28, 60_exceptions.md R230). Code 0 is NONE. -/
def Cause.code : Cause → BitVec 2
  | .illegalOp => 1
  | .operandRange => 2
  | .noKey => 3

/-- FCODE read back as a cause (60_exceptions.md R230): `none` is NONE, no fault since reset. -/
def causeOf (c : BitVec 2) : Option Cause :=
  match c with
  | 1#2 => some .illegalOp
  | 2#2 => some .operandRange
  | 3#2 => some .noKey
  | _ => none

/-- `KV <- 1` (10_state.md R27). -/
def setKV (s : State) : State := { s with kv := true }

/-- `YV <- 1` (10_state.md R27). -/
def setYV (s : State) : State := { s with yv := true }

/-- `FAULT <- 1`, `FCODE <- code` (10_state.md R27, R28). -/
def setFault (c : Cause) (s : State) : State := { s with fault := true, fcode := c.code }

end Sys2Proof.Machine
end

