-- ==== Sys2Proof/Syntax.lean ====
section
/-!
DEFINITION. The commands: one constructor of `Instr` per row of spec/opcode_table.json (30_encoding.md R74), the bare
mnemonics, the six operand formats (30_encoding.md R72) and the pseudo-commands (R82). An operand field the format calls unused is no argument of
the constructor (R77: the command neither reads it nor faults on it).
-/

namespace Sys2Proof

/-- The six operand formats `W`, `WW`, `WI`, `N`, `NN`, `B` of 30_encoding.md R72. -/
inductive Format where
  /-- `a` a 16-bit word, `b` unused. -/
  | w
  /-- `a` and `b` 16-bit words. -/
  | ww
  /-- `a` a 16-bit word, `b` a slot index. -/
  | wi
  /-- `a` a nibble, `b` unused. -/
  | n
  /-- `a` and `b` nibbles. -/
  | nn
  /-- `a` a byte, `b` unused. -/
  | b
deriving DecidableEq, Repr

/-- The 19 mnemonics of 30_encoding.md R74. -/
inductive Mnemonic where
  | nib | lob | hib | hi2 | lo2
  | sbox | isbox | subnib | isubnib | gfmul
  | ark | shrow | mixcol | imixcol | rotnib
  | expand | gfunc
  | enc | dec
deriving DecidableEq, Repr

/-- A command with the operand fields its format uses, each field as it stands in the command word (16 bits): whether a
narrow operand is in range is checked by the command itself (30_encoding.md R73, R76). -/
inductive Instr where
  /-- `NIB a, b` (R102). -/
  | nib (a b : Word)
  /-- `LOB a` (R103). -/
  | lob (a : Word)
  /-- `HIB a` (R104). -/
  | hib (a : Word)
  /-- `HI2 a` (R105). -/
  | hi2 (a : Word)
  /-- `LO2 a` (R106). -/
  | lo2 (a : Word)
  /-- `SBOX a` (R123). -/
  | sbox (a : Word)
  /-- `ISBOX a` (R124). -/
  | isbox (a : Word)
  /-- `SUBNIB a` (R126). -/
  | subnib (a : Word)
  /-- `ISUBNIB a` (R127). -/
  | isubnib (a : Word)
  /-- `GFMUL a, b` (R144). -/
  | gfmul (a b : Word)
  /-- `ARK a, b` (R161). -/
  | ark (a b : Word)
  /-- `SHROW a` (R163). -/
  | shrow (a : Word)
  /-- `MIXCOL a` (R166). -/
  | mixcol (a : Word)
  /-- `IMIXCOL a` (R167). -/
  | imixcol (a : Word)
  /-- `ROTNIB a` (R169). -/
  | rotnib (a : Word)
  /-- `EXPAND a` (R196). -/
  | expand (a : Word)
  /-- `GFUNC a` (R195). -/
  | gfunc (a : Word)
  /-- `ENC a` (R212). -/
  | enc (a : Word)
  /-- `DEC a` (R214). -/
  | dec (a : Word)
deriving DecidableEq, Repr

/-- The pseudo-commands of 30_encoding.md R82. They have no opcode and no row of spec/opcode_table.json: each expands to
real commands (`expandPseudo`). -/
inductive Pseudo where
  | encrypt (key block : Word)
  | decrypt (key block : Word)
  | sub (n inv : Word)
  | subnibbles (w inv : Word)
  | nop
deriving DecidableEq, Repr

end Sys2Proof
end

