-- ==== Sys2Proof/Machine/Operands.lean ====
section
/-!
DEFINITION. Operand decode: which values of an operand field are legal, and the narrow value a legal field stands for
(30_encoding.md R72, R73), with the zero extension every narrow result goes through (10_state.md R24).
-/

namespace Sys2Proof.Machine

/-- `zext_16(v)` (00_scope.md R7). -/
def zext16 {n : Nat} (v : BitVec n) : Word := v.setWidth 16

/-- A slot index is legal iff the field is at most 3, that is iff its bits 15:2 are 0 (R72, R73). -/
def slotLegal (v : Word) : Bool := decide (v ≤ 0x3)

/-- A nibble operand is legal iff the field is at most 0xF, that is iff its bits 15:4 are 0 (R72, R73). -/
def nibbleLegal (v : Word) : Bool := decide (v ≤ 0xF)

/-- A byte operand is legal iff the field is at most 0xFF, that is iff its bits 15:8 are 0 (R72, R73). -/
def byteLegal (v : Word) : Bool := decide (v ≤ 0xFF)

/-- The slot index of a field, its bits 1:0 (R73). -/
def slotOf (v : Word) : Fin 4 := (v.extractLsb' 0 2).toFin

/-- The nibble of a field, its bits 3:0 (R73). -/
def nibbleOf (v : Word) : Nibble := v.extractLsb' 0 4

/-- The byte of a field, its bits 7:0 (R73). -/
def byteOf (v : Word) : Byte := v.extractLsb' 0 8

/-- Which pairs of operand fields a format admits: the table of 30_encoding.md R72. -/
def formatLegal (f : Format) (a b : Word) : Bool :=
  match f with
  | .w => true
  | .ww => true
  | .wi => slotLegal b
  | .n => nibbleLegal a
  | .nn => nibbleLegal a && nibbleLegal b
  | .b => byteLegal a

end Sys2Proof.Machine
end

