-- ==== Sys2Proof/Machine/Ops.lean ====
section
/-!
DEFINITION. The named operations the commands share: writing a result, the round-key registers, taking a fault (the
one exception entry of this hardware; there is no return but reset), the operand and key checks that take it, the
acceptance of a command, and reset.
-/

namespace Sys2Proof.Machine

/-- The result write of every command but `EXPAND`: `Y <- r`, `YV <- 1` (10_state.md R24). -/
def writeResult (r : Word) (s : State) : State := setYV { s with y := r }

/-- The content of the round-key registers (10_state.md R23). -/
def readRoundKeys (s : State) : RoundKeys := { k0 := s.rk0, k1 := s.rk1, k2 := s.rk2 }

/-- The write of all three round-key registers in one step, and `KV <- 1` (10_state.md R23, 45_key_schedule.md R196). -/
def writeRoundKeys (k : RoundKeys) (s : State) : State :=
  setKV { s with rk0 := k.k0, rk1 := k.k1, rk2 := k.k2 }

/-- Taking a fault: "the step's result is the previous state with `FAULT <- 1` and `FCODE <- code`, and nothing else
changed ... Control goes nowhere: there is no handler, no vector table, no saved program counter" (60_exceptions.md
R236, R237). -/
def raise (c : Cause) (s : State) : State := setFault c s

/-- A command that uses a slot index: Fault(OPERAND_RANGE) unless the field is in range (30_encoding.md R76). -/
def withSlot (v : Word) (s : State) (k : Fin 4 → State) : State :=
  if slotLegal v then k (slotOf v) else raise .operandRange s

/-- A command that uses a nibble operand: Fault(OPERAND_RANGE) unless the field is in range (30_encoding.md R76). -/
def withNibble (v : Word) (s : State) (k : Nibble → State) : State :=
  if nibbleLegal v then k (nibbleOf v) else raise .operandRange s

/-- A command that uses a byte operand: Fault(OPERAND_RANGE) unless the field is in range (30_encoding.md R76). -/
def withByte (v : Word) (s : State) (k : Byte → State) : State :=
  if byteLegal v then k (byteOf v) else raise .operandRange s

/-- A command that uses the stored round keys: Fault(NO_KEY) while `KV = 0` (60_exceptions.md R233), so that the
registers are never read before they hold a sequence (10_state.md R29). -/
def withRoundKeys (s : State) (k : RoundKeys → State) : State :=
  if s.kv then k (readRoundKeys s) else raise .noKey s

/-- Command acceptance: "while `FAULT = 1` every command presented is ignored: the state does not change" (60_exceptions.md
R238, 10_state.md R30); otherwise the command's effect is the next state. DEDUCED (safe), log entry 8: every meaning
goes through this check, so `exec` by itself already says what the core does with the command. -/
def accept (s : State) (effect : State → State) : Answer :=
  .next (if s.fault then s else effect s)

/-- The effect of a Reset step, whatever the state before (10_state.md R33, 70_reset_and_hazards.md R261). The host's
pending inputs are no part of the core and stay: DEDUCED (safe), log entry 6. RK0, RK1, RK2 and Y hold no value after it
(R29); what stands in them is log entry 1's, DESIGN CHOICE (unsafe). -/
def resetCore (s : State) : State := { State.reset with pending := s.pending }

end Sys2Proof.Machine
end

