-- ==== Sys2Proof/Machine/Rom.lean ====
section
/-!
DEFINITION. The three read-only address spaces (20_memory.md R50 to R59): their contents, entry by entry as the spec
prints them, and the one read primitive `RomRead` (R54). They are constants and no part of the state (10_state.md R36).
-/

namespace Sys2Proof.Machine

/-- An entry address: which space, and the address of that space's width (20_memory.md R50). The spaces are disjoint
and "not windows of one larger address space" (R59). -/
inductive RomAddr where
  /-- `SBOX_ROM`, 16 entries; the address is the nibble itself (R51). -/
  | sbox (n : Nibble)
  /-- `ISBOX_ROM`, 16 entries; the address is the nibble itself (R51). -/
  | isbox (n : Nibble)
  /-- `GFMUL_ROM`, 256 entries; the address is `{x, y}` for the ordered pair (R52). -/
  | gfmul (xy : Byte)
deriving DecidableEq, Repr

/-- The forward table, rows 0 to 3 of 4 columns (42_sbox.md R121). -/
def sboxTable : List (List Nibble) :=
  [[0x9, 0x4, 0xA, 0xB],
   [0xD, 0x1, 0x8, 0x5],
   [0x6, 0x2, 0x0, 0x3],
   [0xC, 0xE, 0xF, 0x7]]

/-- The inverse table, rows 0 to 3 of 4 columns (42_sbox.md R122). -/
def isboxTable : List (List Nibble) :=
  [[0xA, 0x5, 0x9, 0xB],
   [0x1, 0x7, 0x8, 0xF],
   [0x6, 0x0, 0x2, 0x3],
   [0xC, 0x4, 0xD, 0xE]]

/-- The product table, row `a`, column `b` (43_gf16.md R142). UNVERIFIED (unsafe only against the original program's unprinted
table; normative in the spec), log entry 10. -/
def gfmulTable : List (List Nibble) :=
  [[0x0, 0x0, 0x0, 0x0, 0x0, 0x0, 0x0, 0x0, 0x0, 0x0, 0x0, 0x0, 0x0, 0x0, 0x0, 0x0],
   [0x0, 0x1, 0x2, 0x3, 0x4, 0x5, 0x6, 0x7, 0x8, 0x9, 0xA, 0xB, 0xC, 0xD, 0xE, 0xF],
   [0x0, 0x2, 0x4, 0x6, 0x8, 0xA, 0xC, 0xE, 0x3, 0x1, 0x7, 0x5, 0xB, 0x9, 0xF, 0xD],
   [0x0, 0x3, 0x6, 0x5, 0xC, 0xF, 0xA, 0x9, 0xB, 0x8, 0xD, 0xE, 0x7, 0x4, 0x1, 0x2],
   [0x0, 0x4, 0x8, 0xC, 0x3, 0x7, 0xB, 0xF, 0x6, 0x2, 0xE, 0xA, 0x5, 0x1, 0xD, 0x9],
   [0x0, 0x5, 0xA, 0xF, 0x7, 0x2, 0xD, 0x8, 0xE, 0xB, 0x4, 0x1, 0x9, 0xC, 0x3, 0x6],
   [0x0, 0x6, 0xC, 0xA, 0xB, 0xD, 0x7, 0x1, 0x5, 0x3, 0x9, 0xF, 0xE, 0x8, 0x2, 0x4],
   [0x0, 0x7, 0xE, 0x9, 0xF, 0x8, 0x1, 0x6, 0xD, 0xA, 0x3, 0x4, 0x2, 0x5, 0xC, 0xB],
   [0x0, 0x8, 0x3, 0xB, 0x6, 0xE, 0x5, 0xD, 0xC, 0x4, 0xF, 0x7, 0xA, 0x2, 0x9, 0x1],
   [0x0, 0x9, 0x1, 0x8, 0x2, 0xB, 0x3, 0xA, 0x4, 0xD, 0x5, 0xC, 0x6, 0xF, 0x7, 0xE],
   [0x0, 0xA, 0x7, 0xD, 0xE, 0x4, 0x9, 0x3, 0xF, 0x5, 0x8, 0x2, 0x1, 0xB, 0x6, 0xC],
   [0x0, 0xB, 0x5, 0xE, 0xA, 0x1, 0xF, 0x4, 0x7, 0xC, 0x2, 0x9, 0xD, 0x6, 0x8, 0x3],
   [0x0, 0xC, 0xB, 0x7, 0x5, 0x9, 0xE, 0x2, 0xA, 0x6, 0x1, 0xD, 0xF, 0x3, 0x4, 0x8],
   [0x0, 0xD, 0x9, 0x4, 0x1, 0xC, 0x8, 0x5, 0x2, 0xF, 0xB, 0x6, 0x3, 0xE, 0xA, 0x7],
   [0x0, 0xE, 0xF, 0x1, 0xD, 0x3, 0x2, 0xC, 0x9, 0x7, 0x6, 0x8, 0x4, 0xA, 0xB, 0x5],
   [0x0, 0xF, 0xD, 0x2, 0x9, 0x6, 0x4, 0xB, 0x1, 0xE, 0xC, 0x3, 0x8, 0x7, 0x5, 0xA]]

/-- The element of a table at a row and a column. Every table is full, so the default is never read (20_memory.md R59:
"Every entry of every space is defined"). -/
def tableEntry (t : List (List Nibble)) (row col : Nat) : Nibble := (t.getD row []).getD col 0

/-- The row of a nibble, its high 2 bits (10_state.md R22, 20_memory.md R51). -/
def nibbleRow (n : Nibble) : BitVec 2 := n.extractLsb' 2 2

/-- The column of a nibble, its low 2 bits (10_state.md R22, 20_memory.md R51). -/
def nibbleCol (n : Nibble) : BitVec 2 := n.extractLsb' 0 2

/-- `RomRead(space, addr)`: total, without side effect, one 4-bit entry (20_memory.md R54, R58). -/
def romRead : RomAddr → Nibble
  | .sbox n => tableEntry sboxTable (nibbleRow n).toNat (nibbleCol n).toNat
  | .isbox n => tableEntry isboxTable (nibbleRow n).toNat (nibbleCol n).toNat
  | .gfmul xy => tableEntry gfmulTable (xy.extractLsb' 4 4).toNat (xy.extractLsb' 0 4).toNat

end Sys2Proof.Machine
end

