-- ==== Sys2Proof/Machine/Gf16.lean ====
section
/-!
DEFINITION. The GF16 Arithmetic family (43_gf16.md): the product `gfmul` in the two forms R141 gives, and the command
GFMUL, which reads the product table.
-/

namespace Sys2Proof.Machine

/-- `gfmul(a, b)`: the 7-bit carry-less product, then reduction by x^4 + x + 1 from the top bit down (43_gf16.md R141). -/
def gfmul (a b : Nibble) : Nibble :=
  let product : BitVec 7 :=
    [0, 1, 2, 3].foldl (fun p i => if b.getLsbD i then p ^^^ (a.setWidth 7 <<< i) else p) 0
  let reduced : BitVec 7 :=
    [6, 5, 4].foldl (fun p i => if p.getLsbD i then p ^^^ (0b10011#7 <<< (i - 4)) else p) product
  reduced.extractLsb' 0 4

/-- One round of the shift-and-reduce form: `r` the sum so far, `t` the shifted multiplicand, 5 bits (43_gf16.md R141). -/
def shiftReduceRound (b : Nibble) (rt : Nibble × BitVec 5) (i : Nat) : Nibble × BitVec 5 :=
  let r := if b.getLsbD i then rt.1 ^^^ rt.2.extractLsb' 0 4 else rt.1
  let t := rt.2 <<< 1
  (r, if t.getLsbD 4 then t ^^^ 0b10011#5 else t)

/-- The equivalent shift-and-reduce form of `gfmul` (43_gf16.md R141). -/
def gfmulShiftReduce (a b : Nibble) : Nibble :=
  ([0, 1, 2, 3].foldl (shiftReduceRound b) (0, a.setWidth 5)).1

/-- `GFMUL a, b`: a read of `GFMUL_ROM` at `{a[3:0], b[3:0]}` (43_gf16.md R144). -/
def execGfmul (a b : Word) (s : State) : Answer :=
  accept s fun s => withNibble a s fun x => withNibble b s fun y =>
    writeResult (zext16 (romRead (.gfmul (x ++ y)))) s

end Sys2Proof.Machine
end

