-- ==== Sys2Proof/Machine/NibbleOps.lean ====
section
/-!
DEFINITION. The NibbleOps family (41_nibbleops.md): the functions `nibble` and `pack4`, and the commands NIB, LOB, HIB,
HI2, LO2.
-/

namespace Sys2Proof.Machine

/-- `nibble(w, i)`: the slot index is the row-major index `2*row + col` of the state matrix, the bit positions are
column-major (41_nibbleops.md R100, 10_state.md R21, 90_conflicts.md C1). -/
def nibble (w : Word) (i : Fin 4) : Nibble :=
  match i with
  | 0 => w.extractLsb' 12 4
  | 1 => w.extractLsb' 4 4
  | 2 => w.extractLsb' 8 4
  | 3 => w.extractLsb' 0 4

/-- `pack4(n0, n1, n2, n3) = {n0, n2, n1, n3}`, the inverse of `nibble` (41_nibbleops.md R101). -/
def pack4 (n0 n1 n2 n3 : Nibble) : Word := n0 ++ n2 ++ n1 ++ n3

/-- `w[15:8]`: column 0 of the state matrix, `w0` of a key (41_nibbleops.md R104). -/
def highByte (w : Word) : Byte := w.extractLsb' 8 8

/-- `w[7:0]`: column 1 of the state matrix, `w1` of a key (41_nibbleops.md R103). -/
def lowByte (w : Word) : Byte := w.extractLsb' 0 8

/-- `NIB a, b` (41_nibbleops.md R102). -/
def execNib (a b : Word) (s : State) : Answer :=
  accept s fun s => withSlot b s fun i => writeResult (zext16 (nibble a i)) s

/-- `LOB a` (41_nibbleops.md R103). -/
def execLob (a : Word) (s : State) : Answer :=
  accept s fun s => writeResult (zext16 (lowByte a)) s

/-- `HIB a` (41_nibbleops.md R104). -/
def execHib (a : Word) (s : State) : Answer :=
  accept s fun s => writeResult (zext16 (highByte a)) s

/-- `HI2 a` (41_nibbleops.md R105). -/
def execHi2 (a : Word) (s : State) : Answer :=
  accept s fun s => withNibble a s fun n => writeResult (zext16 (nibbleRow n)) s

/-- `LO2 a` (41_nibbleops.md R106). -/
def execLo2 (a : Word) (s : State) : Answer :=
  accept s fun s => withNibble a s fun n => writeResult (zext16 (nibbleCol n)) s

end Sys2Proof.Machine
end

