-- ==== Sys2Proof/Machine/RoundTransform.lean ====
section
/-!
DEFINITION. The Round Transform family (44_round_transform.md): AddRoundKey, ShiftRow, MixColumns, InvMixColumns, RotNib,
and the commands ARK, SHROW, MIXCOL, IMIXCOL, ROTNIB. Slots 0, 1, 2, 3 are S00, S01, S10, S11 (10_state.md R21).
-/

namespace Sys2Proof.Machine

/-- `AddRoundKey(w, k) = w ^ k` (44_round_transform.md R160). -/
def addRoundKey (w k : Word) : Word := w ^^^ k

/-- `ShiftRow(w)`: the nibbles S10 and S11 change places (44_round_transform.md R162). -/
def shiftRow (w : Word) : Word := pack4 (nibble w 0) (nibble w 1) (nibble w 3) (nibble w 2)

/-- `MixColumns(w)`: matrix `[[1,4],[4,1]]` on each column, from the old values (44_round_transform.md R164). -/
def mixColumns (w : Word) : Word :=
  let s00 := nibble w 0
  let s01 := nibble w 1
  let s10 := nibble w 2
  let s11 := nibble w 3
  pack4 (s00 ^^^ gfmul 4 s10) (s01 ^^^ gfmul 4 s11) (s10 ^^^ gfmul 4 s00) (s11 ^^^ gfmul 4 s01)

/-- `InvMixColumns(w)`: matrix `[[9,2],[2,9]]` on each column (44_round_transform.md R165). -/
def invMixColumns (w : Word) : Word :=
  let s00 := nibble w 0
  let s01 := nibble w 1
  let s10 := nibble w 2
  let s11 := nibble w 3
  pack4 (gfmul 9 s00 ^^^ gfmul 2 s10) (gfmul 9 s01 ^^^ gfmul 2 s11)
    (gfmul 2 s00 ^^^ gfmul 9 s10) (gfmul 2 s01 ^^^ gfmul 9 s11)

/-- `RotNib(b) = {b[3:0], b[7:4]}` (44_round_transform.md R168). -/
def rotNib (b : Byte) : Byte := b.extractLsb' 0 4 ++ b.extractLsb' 4 4

/-- `ARK a, b`: the key is operand `b`, never a register (44_round_transform.md R161). -/
def execArk (a b : Word) (s : State) : Answer :=
  accept s fun s => writeResult (addRoundKey a b) s

/-- `SHROW a` (44_round_transform.md R163). -/
def execShrow (a : Word) (s : State) : Answer :=
  accept s fun s => writeResult (shiftRow a) s

/-- `MIXCOL a` (44_round_transform.md R166). -/
def execMixcol (a : Word) (s : State) : Answer :=
  accept s fun s => writeResult (mixColumns a) s

/-- `IMIXCOL a` (44_round_transform.md R167). -/
def execImixcol (a : Word) (s : State) : Answer :=
  accept s fun s => writeResult (invMixColumns a) s

/-- `ROTNIB a` (44_round_transform.md R169). -/
def execRotnib (a : Word) (s : State) : Answer :=
  accept s fun s => withByte a s fun b => writeResult (zext16 (rotNib b)) s

end Sys2Proof.Machine
end

