-- ==== Sys2Proof/Machine/Sbox.lean ====
section
/-!
DEFINITION. The Substitution Box family (42_sbox.md): `substitute`, `SubNibbles`, and the commands SBOX, ISBOX, SUBNIB,
ISUBNIB.
-/

namespace Sys2Proof.Machine

/-- `substitute(n, inverse)`: a lookup in the forward or in the inverse table (42_sbox.md R120). -/
def substitute (n : Nibble) (inverse : Bool) : Nibble :=
  if inverse then romRead (.isbox n) else romRead (.sbox n)

/-- `SubNibbles(w, inverse)`: each nibble replaced in its own place (42_sbox.md R125). -/
def subNibbles (w : Word) (inverse : Bool) : Word :=
  pack4 (substitute (nibble w 0) inverse) (substitute (nibble w 1) inverse)
    (substitute (nibble w 2) inverse) (substitute (nibble w 3) inverse)

/-- `SBOX a` (42_sbox.md R123). -/
def execSbox (a : Word) (s : State) : Answer :=
  accept s fun s => withNibble a s fun n => writeResult (zext16 (substitute n false)) s

/-- `ISBOX a` (42_sbox.md R124). -/
def execIsbox (a : Word) (s : State) : Answer :=
  accept s fun s => withNibble a s fun n => writeResult (zext16 (substitute n true)) s

/-- `SUBNIB a` (42_sbox.md R126). -/
def execSubnib (a : Word) (s : State) : Answer :=
  accept s fun s => writeResult (subNibbles a false) s

/-- `ISUBNIB a` (42_sbox.md R127). -/
def execIsubnib (a : Word) (s : State) : Answer :=
  accept s fun s => writeResult (subNibbles a true) s

end Sys2Proof.Machine
end

