-- ==== Sys2Proof/Machine/KeySchedule.lean ====
section
/-!
DEFINITION. The Key Schedule family (45_key_schedule.md): the round constants, SubByte, g, expand, and the commands
GFUNC and EXPAND.
-/

namespace Sys2Proof.Machine

/-- `RCON1` (45_key_schedule.md R190). -/
def rcon1 : Byte := 0x80

/-- `RCON2` (45_key_schedule.md R190). -/
def rcon2 : Byte := 0x30

/-- `SubByte(b) = {S(b[7:4]), S(b[3:0])}`, always by the forward table (45_key_schedule.md R191, 90_conflicts.md C7). -/
def subByte (b : Byte) : Byte :=
  substitute (b.extractLsb' 4 4) false ++ substitute (b.extractLsb' 0 4) false

/-- `g(b) = SubByte(RotNib(b))` (45_key_schedule.md R193). -/
def g (b : Byte) : Byte := subByte (rotNib b)

/-- `expand(key) = [K0, K1, K2]` (45_key_schedule.md R194). -/
def expandKey (key : Word) : RoundKeys :=
  let w0 := highByte key
  let w1 := lowByte key
  let w2 := w0 ^^^ rcon1 ^^^ g w1
  let w3 := w2 ^^^ w1
  let w4 := w2 ^^^ rcon2 ^^^ g w3
  let w5 := w4 ^^^ w3
  { k0 := w0 ++ w1, k1 := w2 ++ w3, k2 := w4 ++ w5 }

/-- `GFUNC a` (45_key_schedule.md R195). -/
def execGfunc (a : Word) (s : State) : Answer :=
  accept s fun s => withByte a s fun b => writeResult (zext16 (g b)) s

/-- `EXPAND a`: all three round-key registers and KV; Y and YV are not written (45_key_schedule.md R196). -/
def execExpand (a : Word) (s : State) : Answer :=
  accept s fun s => writeRoundKeys (expandKey a) s

end Sys2Proof.Machine
end

