-- ==== Sys2Proof/Machine/CipherPipeline.lean ====
section
/-!
DEFINITION. The Cipher Pipeline family (46_cipher_pipeline.md): Encrypt and Decrypt, each a fixed sequence of eight
stages, and the commands ENC and DEC, which run a sequence whole in one step (10_state.md R25).
-/

namespace Sys2Proof.Machine

/-- `Encrypt(block, [K0, K1, K2])`, stages `s1` to `s8` (46_cipher_pipeline.md R211). -/
def encrypt (block : Word) (k : RoundKeys) : Word :=
  let s1 := addRoundKey block k.k0
  let s2 := subNibbles s1 false
  let s3 := shiftRow s2
  let s4 := mixColumns s3
  let s5 := addRoundKey s4 k.k1
  let s6 := subNibbles s5 false
  let s7 := shiftRow s6
  addRoundKey s7 k.k2

/-- `Decrypt(block, [K0, K1, K2])`, stages `t1` to `t8` (46_cipher_pipeline.md R213). -/
def decrypt (block : Word) (k : RoundKeys) : Word :=
  let t1 := addRoundKey block k.k2
  let t2 := shiftRow t1
  let t3 := subNibbles t2 true
  let t4 := addRoundKey t3 k.k1
  let t5 := invMixColumns t4
  let t6 := shiftRow t5
  let t7 := subNibbles t6 true
  addRoundKey t7 k.k0

/-- `ENC a`: Fault(NO_KEY) while `KV = 0`, else `Y <- Encrypt(a, [RK0, RK1, RK2])` (46_cipher_pipeline.md R212). -/
def execEnc (a : Word) (s : State) : Answer :=
  accept s fun s => withRoundKeys s fun k => writeResult (encrypt a k) s

/-- `DEC a`: Fault(NO_KEY) while `KV = 0`, else `Y <- Decrypt(a, [RK0, RK1, RK2])` (46_cipher_pipeline.md R214). -/
def execDec (a : Word) (s : State) : Answer :=
  accept s fun s => withRoundKeys s fun k => writeResult (decrypt a k) s

end Sys2Proof.Machine
end

