-- ==== Sys2Proof/Machine/Dispatch.lean ====
section
/-!
DEFINITION. The dispatch: one arm per command, each a direct call of its meaning.
-/

namespace Sys2Proof.Machine

def exec (i : Instr) (s : State) : Host.Outcome State Fault Refusal :=
  match i with
  -- NibbleOps (41_nibbleops.md)
  | .nib a b => Sys2Proof.Machine.execNib a b s
  | .lob a => Sys2Proof.Machine.execLob a s
  | .hib a => Sys2Proof.Machine.execHib a s
  | .hi2 a => Sys2Proof.Machine.execHi2 a s
  | .lo2 a => Sys2Proof.Machine.execLo2 a s
  -- Substitution Box (42_sbox.md) and GF16 (43_gf16.md)
  | .sbox a => Sys2Proof.Machine.execSbox a s
  | .isbox a => Sys2Proof.Machine.execIsbox a s
  | .subnib a => Sys2Proof.Machine.execSubnib a s
  | .isubnib a => Sys2Proof.Machine.execIsubnib a s
  | .gfmul a b => Sys2Proof.Machine.execGfmul a b s
  -- Round Transform (44_round_transform.md)
  | .ark a b => Sys2Proof.Machine.execArk a b s
  | .shrow a => Sys2Proof.Machine.execShrow a s
  | .mixcol a => Sys2Proof.Machine.execMixcol a s
  | .imixcol a => Sys2Proof.Machine.execImixcol a s
  | .rotnib a => Sys2Proof.Machine.execRotnib a s
  -- Key Schedule (45_key_schedule.md)
  | .expand a => Sys2Proof.Machine.execExpand a s
  | .gfunc a => Sys2Proof.Machine.execGfunc a s
  -- Cipher Pipeline (46_cipher_pipeline.md)
  | .enc a => Sys2Proof.Machine.execEnc a s
  | .dec a => Sys2Proof.Machine.execDec a s

end Sys2Proof.Machine
end

