-- ==== Sys2Proof/WellFormed.lean ====
section
/-!
DEFINITION. A command is well formed iff every restricted operand is in its legal range: the eight commands and ranges
of 30_encoding.md R76 (60_exceptions.md R232). An ill-formed command still decodes; executing it takes the fault
OPERAND_RANGE.
-/

namespace Sys2Proof

/-- The operand range check of 30_encoding.md R76, command by command. -/
def Instr.wellFormed : Instr → Bool
  | .nib _ b => Machine.slotLegal b
  | .lob _ => true
  | .hib _ => true
  | .hi2 a => Machine.nibbleLegal a
  | .lo2 a => Machine.nibbleLegal a
  | .sbox a => Machine.nibbleLegal a
  | .isbox a => Machine.nibbleLegal a
  | .subnib _ => true
  | .isubnib _ => true
  | .gfmul a b => Machine.nibbleLegal a && Machine.nibbleLegal b
  | .ark _ _ => true
  | .shrow _ => true
  | .mixcol _ => true
  | .imixcol _ => true
  | .rotnib a => Machine.byteLegal a
  | .expand _ => true
  | .gfunc a => Machine.byteLegal a
  | .enc _ => true
  | .dec _ => true

end Sys2Proof
end

