-- ==== Sys2Proof/Decode.lean ====
section
/-!
DEFINITION. Decoding and encoding of the 37-bit command word (30_encoding.md R70 to R74, R78, R80, R81). Decoding is
total: a word is one of the 19 commands with its operand fields, or it is refused by name because its opcode is
reserved.
-/

namespace Sys2Proof

/-- Why a word is no command. -/
inductive DecodeError where
  /-- The opcode field holds one of the 13 reserved values (30_encoding.md R78). Raised by `decode`; the machine answers
  it with the fault ILLEGAL_OP, a next state, so nothing stops. Safe. -/
  | reservedOpcode (op : Opcode)
deriving DecidableEq, Repr

/-- `op = cmd[36:32]` (30_encoding.md R71). -/
def opField (w : CmdWord) : Opcode := w.extractLsb' 32 5

/-- `a = cmd[31:16]` (30_encoding.md R71). -/
def aField (w : CmdWord) : Word := w.extractLsb' 16 16

/-- `b = cmd[15:0]` (30_encoding.md R71). -/
def bField (w : CmdWord) : Word := w.extractLsb' 0 16

/-- `cmd = {op, a, b}` (30_encoding.md R70). -/
def cmdWord (op : Opcode) (a b : Word) : CmdWord := op ++ a ++ b

/-- The opcode column of 30_encoding.md R74. -/
def Mnemonic.opcode : Mnemonic → Opcode
  | .nib => 0x01
  | .lob => 0x02
  | .hib => 0x03
  | .hi2 => 0x04
  | .lo2 => 0x05
  | .sbox => 0x08
  | .isbox => 0x09
  | .subnib => 0x0A
  | .isubnib => 0x0B
  | .gfmul => 0x0C
  | .ark => 0x10
  | .shrow => 0x11
  | .mixcol => 0x12
  | .imixcol => 0x13
  | .rotnib => 0x14
  | .expand => 0x18
  | .gfunc => 0x19
  | .enc => 0x1C
  | .dec => 0x1D

/-- The format column of 30_encoding.md R74. -/
def Mnemonic.format : Mnemonic → Format
  | .nib => .wi
  | .lob => .w
  | .hib => .w
  | .hi2 => .n
  | .lo2 => .n
  | .sbox => .n
  | .isbox => .n
  | .subnib => .w
  | .isubnib => .w
  | .gfmul => .nn
  | .ark => .ww
  | .shrow => .w
  | .mixcol => .w
  | .imixcol => .w
  | .rotnib => .b
  | .expand => .w
  | .gfunc => .b
  | .enc => .w
  | .dec => .w

/-- Whether a format uses the field `b` (30_encoding.md R72). -/
def formatUsesB : Format → Bool
  | .w => false
  | .ww => true
  | .wi => true
  | .n => false
  | .nn => true
  | .b => false

/-- The command a mnemonic makes of the two operand fields: an unused `b` is dropped (30_encoding.md R77). -/
def Mnemonic.instr (m : Mnemonic) (a b : Word) : Instr :=
  match m with
  | .nib => .nib a b
  | .lob => .lob a
  | .hib => .hib a
  | .hi2 => .hi2 a
  | .lo2 => .lo2 a
  | .sbox => .sbox a
  | .isbox => .isbox a
  | .subnib => .subnib a
  | .isubnib => .isubnib a
  | .gfmul => .gfmul a b
  | .ark => .ark a b
  | .shrow => .shrow a
  | .mixcol => .mixcol a
  | .imixcol => .imixcol a
  | .rotnib => .rotnib a
  | .expand => .expand a
  | .gfunc => .gfunc a
  | .enc => .enc a
  | .dec => .dec a

/-- The mnemonic of a command. -/
def Instr.mnemonic : Instr → Mnemonic
  | .nib _ _ => .nib
  | .lob _ => .lob
  | .hib _ => .hib
  | .hi2 _ => .hi2
  | .lo2 _ => .lo2
  | .sbox _ => .sbox
  | .isbox _ => .isbox
  | .subnib _ => .subnib
  | .isubnib _ => .isubnib
  | .gfmul _ _ => .gfmul
  | .ark _ _ => .ark
  | .shrow _ => .shrow
  | .mixcol _ => .mixcol
  | .imixcol _ => .imixcol
  | .rotnib _ => .rotnib
  | .expand _ => .expand
  | .gfunc _ => .gfunc
  | .enc _ => .enc
  | .dec _ => .dec

/-- The field `a` of a command: every format uses it (30_encoding.md R72). -/
def Instr.operandA : Instr → Word
  | .nib a _ => a
  | .lob a => a
  | .hib a => a
  | .hi2 a => a
  | .lo2 a => a
  | .sbox a => a
  | .isbox a => a
  | .subnib a => a
  | .isubnib a => a
  | .gfmul a _ => a
  | .ark a _ => a
  | .shrow a => a
  | .mixcol a => a
  | .imixcol a => a
  | .rotnib a => a
  | .expand a => a
  | .gfunc a => a
  | .enc a => a
  | .dec a => a

/-- The field `b` of a command: "an assembler emits zero in an unused field" (30_encoding.md R77, R81). -/
def Instr.operandB : Instr → Word
  | .nib _ b => b
  | .lob _ => 0
  | .hib _ => 0
  | .hi2 _ => 0
  | .lo2 _ => 0
  | .sbox _ => 0
  | .isbox _ => 0
  | .subnib _ => 0
  | .isubnib _ => 0
  | .gfmul _ b => b
  | .ark _ b => b
  | .shrow _ => 0
  | .mixcol _ => 0
  | .imixcol _ => 0
  | .rotnib _ => 0
  | .expand _ => 0
  | .gfunc _ => 0
  | .enc _ => 0
  | .dec _ => 0

/-- The opcode map of 30_encoding.md R74 read from opcode to mnemonic; the 13 reserved values of R78 name none. -/
def mnemonicOf (op : Opcode) : Option Mnemonic :=
  match op with
  | 0x01#5 => some .nib
  | 0x02#5 => some .lob
  | 0x03#5 => some .hib
  | 0x04#5 => some .hi2
  | 0x05#5 => some .lo2
  | 0x08#5 => some .sbox
  | 0x09#5 => some .isbox
  | 0x0A#5 => some .subnib
  | 0x0B#5 => some .isubnib
  | 0x0C#5 => some .gfmul
  | 0x10#5 => some .ark
  | 0x11#5 => some .shrow
  | 0x12#5 => some .mixcol
  | 0x13#5 => some .imixcol
  | 0x14#5 => some .rotnib
  | 0x18#5 => some .expand
  | 0x19#5 => some .gfunc
  | 0x1C#5 => some .enc
  | 0x1D#5 => some .dec
  | _ => none

/-- The 13 reserved opcodes, as 30_encoding.md R78 lists them. -/
def reservedOpcodes : List Opcode :=
  [0x00, 0x06, 0x07, 0x0D, 0x0E, 0x0F, 0x15, 0x16, 0x17, 0x1A, 0x1B, 0x1E, 0x1F]

/-- The match value of a row: "`match` of a row is `op << 32`"; the mask of every row is the `op` field only (30_encoding.md
R74). -/
def Mnemonic.matchWord (m : Mnemonic) : CmdWord := m.opcode.setWidth 37 <<< 32

/-- Steps (1) and (2) of the decode procedure (30_encoding.md R80), and reading off the operand fields of step (3). The
range check of step (3) is the command's own: DEDUCED (safe), log entry 13. -/
def decode (w : CmdWord) : Except DecodeError Instr :=
  match mnemonicOf (opField w) with
  | some m => .ok (m.instr (aField w) (bField w))
  | none => .error (.reservedOpcode (opField w))

/-- The word of a command (30_encoding.md R81: "The encoding of a line is the 37-bit word `{op, a, b}`"). -/
def encode (i : Instr) : CmdWord := cmdWord i.mnemonic.opcode i.operandA i.operandB

/-- The command word of an instruction whose low `nbits` bits are `w`, in the numbering of spec/opcode_table.json.
DESIGN CHOICE (safe), log entry 12: the port has 37 wires (R70), so a bit of `w` above bit 36 is on no wire. -/
def tableCmdWord (nbits w : Nat) : CmdWord := BitVec.ofNat 37 (w % 2 ^ nbits)

/-- What `decode` reads from an instruction whose bits are `w` in the numbering of spec/opcode_table.json. -/
def decodeTableWord (nbits w : Nat) : Option Instr :=
  match decode (tableCmdWord nbits w) with
  | .ok i => some i
  | .error _ => none

end Sys2Proof
end

