-- ==== Sys2Proof/Machine/HostPort.lean ====
section
/-!
DEFINITION. The ports of 10_state.md R32: how the input pins of a step are read (R30, R32; 70_reset_and_hazards.md
R260), where the next step's pins come from, and what the output ports show.
-/

namespace Sys2Proof.Machine

/-- "The 37-bit command word ... is `{cmd_op, cmd_a, cmd_b}`" (10_state.md R32, 30_encoding.md R70). -/
def Pins.word (p : Pins) : CmdWord := cmdWord p.cmdOp p.cmdA p.cmdB

/-- The input the pins of one step make: `rst = 1` is Reset whatever the other pins hold (70_reset_and_hazards.md
R260); else `cmd_valid` tells a command from Idle (10_state.md R32). -/
def Pins.input (p : Pins) : Input :=
  if p.rst then .reset else if p.cmdValid then .cmd p.word else .idle

/-- Pins that present a command: `rst = 0`, `cmd_valid = 1`, the word's fields on the command ports. -/
def pinsOfWord (w : CmdWord) : Pins :=
  { rst := false, cmdValid := true, cmdOp := opField w, cmdA := aField w, cmdB := bField w }

/-- Pins of an idle step: `rst = 0`, `cmd_valid = 0`. -/
def idlePins : Pins := { rst := false, cmdValid := false, cmdOp := 0, cmdA := 0, cmdB := 0 }

/-- Pins that request reset: `rst = 1`. -/
def resetPins : Pins := { rst := true, cmdValid := false, cmdOp := 0, cmdA := 0, cmdB := 0 }

/-- The input of the next step: the oldest pending pins, or Idle when the host has no more inputs. DESIGN CHOICE (safe),
log entry 2. -/
def sample (s : State) : Input :=
  match s.pending with
  | [] => .idle
  | p :: _ => p.input

/-- The state in which the next input is executed: the pins are presented for exactly one step
(70_reset_and_hazards.md R270), so they are pending no more. -/
def advance (s : State) : State := { s with pending := s.pending.tail }

/-- `s` with the pins of its NEXT step presenting the command word `w`. -/
def presentNext (s : State) (w : CmdWord) : State := { s with pending := pinsOfWord w :: s.pending.tail }

/-- What the output ports show: each its state element (10_state.md R32). DEDUCED (safe), log entry 9: "the levels on
ports `rk0`, `rk1`, `rk2` while `kv = 0` and on port `y` while `yv = 0` are unspecified" (R29), so there they show
no value. -/
def State.ports (s : State) : OutPorts where
  y := if s.yv then some s.y else none
  yv := s.yv
  rk0 := if s.kv then some s.rk0 else none
  rk1 := if s.kv then some s.rk1 else none
  rk2 := if s.kv then some s.rk2 else none
  kv := s.kv
  fault := s.fault
  fcode := s.fcode

end Sys2Proof.Machine
end

