-- ==== Sys2Proof/Machine/Present.lean ====
section
/-!
DEFINITION. What the core does with the input of one step (10_state.md R30), and with a finite list of inputs
(20_memory.md R61, 70_reset_and_hazards.md R270).
-/

namespace Sys2Proof.Machine

/-- The step function of 10_state.md R30 on a state and an input. A word whose opcode is reserved takes the fault
ILLEGAL_OP (30_encoding.md R78), unless the core is faulted, when it is ignored like every command (60_exceptions.md
R238). -/
def present (input : Input) (s : State) : Answer :=
  match input with
  | .reset => .next (resetCore s)
  | .idle => .next s
  | .cmd w =>
    match decode w with
    | .ok i => exec i s
    | .error _ => accept s (raise .illegalOp)

/-- "The effect of a command sequence is the left-to-right composition of the step function" (20_memory.md R61). -/
def presentAll : List Input → State → Answer
  | [], s => .next s
  | input :: rest, s =>
    match present input s with
    | .next s' => presentAll rest s'
    | .fault r => .fault r
    | .refused r => .refused r

end Sys2Proof.Machine
end

