-- ==== Sys2Proof/Machine/Step.lean ====
section
/-!
DEFINITION. One step of the machine: it takes the pins the host drives in this step and executes the input they make.
-/

namespace Sys2Proof.Machine

/-- One step (10_state.md R30): the input of the step is read from the pins, which are presented for exactly one step. -/
def step (s : State) : Host.Outcome State Fault Refusal := present (sample s) (advance s)

/-- `s` with the instruction whose bits are `w` (numbered as spec/opcode_table.json numbers them) on the command port in
the next step. There is no instruction memory (10_state.md R26): log entry 3. -/
def State.withFetchWord (s : State) (nbits w : Nat) : State := presentNext s (tableCmdWord nbits w)

end Sys2Proof.Machine
end

