-- ==== Sys2Proof/Machine/Assembler.lean ====
section
/-!
DEFINITION. The textual form of commands and the pseudo-commands (30_encoding.md R81, R82): a line of text becomes the
pins of the steps that present it. Text is a list of characters. Where R81 is silent (spaces, the case of hexadecimal
digits, a value wider than 16 bits, too many operands) the choices are those of log entry 11, DESIGN CHOICE (safe): no
definition of the machine uses this file.
-/

namespace Sys2Proof.Machine

/-- The mnemonics "in upper case" (30_encoding.md R81, R74). -/
def mnemonicTexts : List (List Char × Mnemonic) :=
  [(['N', 'I', 'B'], .nib),
   (['L', 'O', 'B'], .lob),
   (['H', 'I', 'B'], .hib),
   (['H', 'I', '2'], .hi2),
   (['L', 'O', '2'], .lo2),
   (['S', 'B', 'O', 'X'], .sbox),
   (['I', 'S', 'B', 'O', 'X'], .isbox),
   (['S', 'U', 'B', 'N', 'I', 'B'], .subnib),
   (['I', 'S', 'U', 'B', 'N', 'I', 'B'], .isubnib),
   (['G', 'F', 'M', 'U', 'L'], .gfmul),
   (['A', 'R', 'K'], .ark),
   (['S', 'H', 'R', 'O', 'W'], .shrow),
   (['M', 'I', 'X', 'C', 'O', 'L'], .mixcol),
   (['I', 'M', 'I', 'X', 'C', 'O', 'L'], .imixcol),
   (['R', 'O', 'T', 'N', 'I', 'B'], .rotnib),
   (['E', 'X', 'P', 'A', 'N', 'D'], .expand),
   (['G', 'F', 'U', 'N', 'C'], .gfunc),
   (['E', 'N', 'C'], .enc),
   (['D', 'E', 'C'], .dec)]

/-- The mnemonic a text names. -/
def mnemonicOfText (t : List Char) : Option Mnemonic :=
  (mnemonicTexts.find? fun row => row.1 == t).map fun row => row.2

/-- The pins that present a command. -/
def pinsOfInstr (i : Instr) : Pins := pinsOfWord (encode i)

/-- The expansion of a pseudo-command, in the order 30_encoding.md R82 shows; `none` is the assembly-time error of an
`inv` other than 0 or 1. -/
def expandPseudo : Pseudo → Option (List Pins)
  | .encrypt key block => some [pinsOfInstr (.expand key), pinsOfInstr (.enc block)]
  | .decrypt key block => some [pinsOfInstr (.expand key), pinsOfInstr (.dec block)]
  | .sub n inv =>
    if inv = 0 then some [pinsOfInstr (.sbox n)]
    else if inv = 1 then some [pinsOfInstr (.isbox n)]
    else none
  | .subnibbles w inv =>
    if inv = 0 then some [pinsOfInstr (.subnib w)]
    else if inv = 1 then some [pinsOfInstr (.isubnib w)]
    else none
  | .nop => some [idlePins]

/-- "`--` starting a comment" (30_encoding.md R81). -/
def stripComment : List Char → List Char
  | [] => []
  | c :: cs => if c = '-' ∧ cs.head? = some '-' then [] else c :: stripComment cs

/-- Space or tab. -/
def isBlank (c : Char) : Bool := c = ' ' || c = '\t'

/-- A text without the blanks at its two ends. -/
def trim (t : List Char) : List Char := ((t.dropWhile isBlank).reverse.dropWhile isBlank).reverse

/-- The parts of a text between commas; a text without a comma is one part. -/
def splitCommas : List Char → List (List Char)
  | [] => [[]]
  | c :: cs =>
    if c = ',' then [] :: splitCommas cs
    else
      match splitCommas cs with
      | [] => [[c]]
      | part :: parts => (c :: part) :: parts

/-- The value of a digit in base 16. -/
def digitValue (c : Char) : Option Nat :=
  if 48 ≤ c.toNat ∧ c.toNat ≤ 57 then some (c.toNat - 48)
  else if 65 ≤ c.toNat ∧ c.toNat ≤ 70 then some (c.toNat - 55)
  else if 97 ≤ c.toNat ∧ c.toNat ≤ 102 then some (c.toNat - 87)
  else none

/-- The value of a text of digits of a base, most significant first, after a value `acc` of the digits before them. -/
def digitsValue (base acc : Nat) : List Char → Option Nat
  | [] => some acc
  | c :: cs =>
    match digitValue c with
    | some d => if d < base then digitsValue base (acc * base + d) cs else none
    | none => none

/-- A value as a 16-bit operand, if it fits. -/
def asOperand : Option Nat → Option Word
  | some v => if v < 65536 then some (BitVec.ofNat 16 v) else none
  | none => none

/-- A literal: "`0x`-prefixed hexadecimal literals (or `0b`-prefixed binary literals)" (30_encoding.md R81). -/
def literal : List Char → Option Word
  | '0' :: 'x' :: d :: ds => asOperand (digitsValue 16 0 (d :: ds))
  | '0' :: 'b' :: d :: ds => asOperand (digitsValue 2 0 (d :: ds))
  | _ => none

/-- All literals of a list, if each is one. -/
def literals : List (List Char) → Option (List Word)
  | [] => some []
  | t :: ts =>
    match literal (trim t), literals ts with
    | some v, some vs => some (v :: vs)
    | _, _ => none

/-- The operands of a line: the text after the mnemonic. -/
def operandsOf (t : List Char) : Option (List Word) := if trim t = [] then some [] else literals (splitCommas t)

/-- A real command: "An omitted operand is encoded as `0x0000`" (30_encoding.md R81). -/
def assembleCommand (m : Mnemonic) : List Word → Option (List Pins)
  | [] => some [pinsOfWord (cmdWord m.opcode 0 0)]
  | [a] => some [pinsOfWord (cmdWord m.opcode a 0)]
  | [a, b] => some [pinsOfWord (cmdWord m.opcode a b)]
  | _ => none

/-- The pseudo-command a name and its operands make (30_encoding.md R82). -/
def pseudoOf (name : List Char) (operands : List Word) : Option Pseudo :=
  match operands with
  | [a, b] =>
    if name = ['E', 'N', 'C', 'R', 'Y', 'P', 'T'] then some (.encrypt a b)
    else if name = ['D', 'E', 'C', 'R', 'Y', 'P', 'T'] then some (.decrypt a b)
    else if name = ['S', 'U', 'B'] then some (.sub a b)
    else if name = ['S', 'U', 'B', 'N', 'I', 'B', 'B', 'L', 'E', 'S'] then some (.subnibbles a b)
    else none
  | [] => if name = ['N', 'O', 'P'] then some .nop else none
  | _ => none

/-- One line: nothing, a command, or a pseudo-command; `none` is an assembly-time error. -/
def assembleLine (line : List Char) : Option (List Pins) :=
  let t := trim (stripComment line)
  let name := t.takeWhile fun c => !isBlank c
  if name = [] then some []
  else
    match operandsOf (t.drop name.length) with
    | none => none
    | some operands =>
      match mnemonicOfText name with
      | some m => assembleCommand m operands
      | none =>
        match pseudoOf name operands with
        | some p => expandPseudo p
        | none => none

/-- "A sequence of lines is presented to the core one command per step, top to bottom" (30_encoding.md R81). -/
def assemble : List (List Char) → Option (List Pins)
  | [] => some []
  | line :: lines =>
    match assembleLine line, assemble lines with
    | some ps, some rest => some (ps ++ rest)
    | _, _ => none

/-- A hexadecimal digit, in upper case. -/
def hexDigit (n : Nibble) : Char :=
  if n.toNat < 10 then Char.ofNat (48 + n.toNat) else Char.ofNat (55 + n.toNat)

/-- The word of a command "written ... as 10 hexadecimal digits (the top three bits of the first digit are always 0)"
(30_encoding.md R81). -/
def wordText (w : CmdWord) : List Char :=
  '0' :: 'x' :: ([9, 8, 7, 6, 5, 4, 3, 2, 1, 0].map fun k => hexDigit (w.extractLsb' (4 * k) 4))

end Sys2Proof.Machine
end

