-- ==== Sys2Proof/Safety.lean ====
section
/-!
DEFINITION. The terms claims use: a core that accepts commands, the invariants of the state, and what the host can tell
apart.
-/

namespace Sys2Proof.Machine

/-- The core accepts commands: `FAULT = 0` (10_state.md R30). A faulted state is "never a good final state"
(93_implementation_defined.md U6). -/
abbrev State.Accepting (s : State) : Prop := s.fault = false

/-- "`FCODE != 0` if and only if `FAULT = 1`" (10_state.md R28). -/
abbrev State.FaultCodeAgrees (s : State) : Prop := s.fault = true ↔ s.fcode ≠ 0

/-- "Whenever `KV = 1` there is a 16-bit `key` ... such that `[RK0, RK1, RK2] = expand(key)`; in particular `RK0 = key`"
(10_state.md R35). -/
def State.KeysAreExpanded (s : State) : Prop :=
  s.kv = true → ∃ key, readRoundKeys s = expandKey key ∧ s.rk0 = key

/-- The invariant of the state: the fault code agrees with the flag, and stored round keys are an expanded key. -/
def State.Inv (s : State) : Prop := s.FaultCodeAgrees ∧ s.KeysAreExpanded

/-- What can matter to the host: the output ports (10_state.md R32), which show no value of a register that holds none
(R29), and the inputs it has yet to drive. -/
def SameSeen (s t : State) : Prop := s.ports = t.ports ∧ s.pending = t.pending

/-- An operand of the command word is out of its range: the list of 30_encoding.md R76, on the word's own fields. -/
abbrev OperandOutOfRange (op : Opcode) (a b : Word) : Prop :=
  (op = 0x01 ∧ 3 < b) ∨ (op ∈ ([0x04, 0x05, 0x08, 0x09] : List Opcode) ∧ 0xF < a) ∨
    (op = 0x0C ∧ (0xF < a ∨ 0xF < b)) ∨ (op ∈ ([0x14, 0x19] : List Opcode) ∧ 0xFF < a)

/-- The opcode is `ENC` or `DEC`, the commands that read the stored round keys (10_state.md R30, R34). -/
abbrev UsesRoundKeys (op : Opcode) : Prop := op = 0x1C ∨ op = 0x1D

/-- Ports that show a core with nothing in it: ResetState as the host sees it (10_state.md R29, R32, R33). -/
def clearedPorts : OutPorts where
  y := none
  yv := false
  rk0 := none
  rk1 := none
  rk2 := none
  kv := false
  fault := false
  fcode := 0

end Sys2Proof.Machine
end

