-- ==== Sys2Proof/Certificates/Slice0/Obligations.lean ====
section
/-!
DEFINITION. The statements for the provers, each a proposition whose docstring names the rules of spec/ it formalises. A
result is written out in bits or by the rule's own equations, not by the meaning's own words, wherever the rule does so;
an equation with a whole next state is the command's frame as well: every element it does not name is unchanged.
-/

open Sys2Proof Sys2Proof.Machine

/-! ### NibbleOps (41_nibbleops.md) -/

/-- R102: opcode, the four slots by their explicit bit ranges, and the fault for an index above 3, never reduced. -/
def Obligations.NibExtractsSlot : Prop :=
  ∀ (a b : Word) (s : State), s.Accepting →
    decode (cmdWord 0x01 a b) = .ok (.nib a b) ∧
      (b = 0 → exec (.nib a b) s = .next { s with y := (a.extractLsb' 12 4).setWidth 16, yv := true }) ∧
      (b = 1 → exec (.nib a b) s = .next { s with y := (a.extractLsb' 4 4).setWidth 16, yv := true }) ∧
      (b = 2 → exec (.nib a b) s = .next { s with y := (a.extractLsb' 8 4).setWidth 16, yv := true }) ∧
      (b = 3 → exec (.nib a b) s = .next { s with y := (a.extractLsb' 0 4).setWidth 16, yv := true }) ∧
      (3 < b → exec (.nib a b) s = .next { s with fault := true, fcode := 2 })

/-- R103. -/
def Obligations.LobExtractsLowByte : Prop :=
  ∀ (a b : Word) (s : State), s.Accepting →
    decode (cmdWord 0x02 a b) = .ok (.lob a) ∧
      exec (.lob a) s = .next { s with y := (a.extractLsb' 0 8).setWidth 16, yv := true }

/-- R104. -/
def Obligations.HibExtractsHighByte : Prop :=
  ∀ (a b : Word) (s : State), s.Accepting →
    decode (cmdWord 0x03 a b) = .ok (.hib a) ∧
      exec (.hib a) s = .next { s with y := (a.extractLsb' 8 8).setWidth 16, yv := true }

/-- R105. -/
def Obligations.Hi2ExtractsRowBits : Prop :=
  ∀ (a b : Word) (s : State), s.Accepting →
    decode (cmdWord 0x04 a b) = .ok (.hi2 a) ∧
      (a ≤ 0xF → exec (.hi2 a) s = .next { s with y := (a.extractLsb' 2 2).setWidth 16, yv := true }) ∧
      (0xF < a → exec (.hi2 a) s = .next { s with fault := true, fcode := 2 })

/-- R106. -/
def Obligations.Lo2ExtractsColumnBits : Prop :=
  ∀ (a b : Word) (s : State), s.Accepting →
    decode (cmdWord 0x05 a b) = .ok (.lo2 a) ∧
      (a ≤ 0xF → exec (.lo2 a) s = .next { s with y := (a.extractLsb' 0 2).setWidth 16, yv := true }) ∧
      (0xF < a → exec (.lo2 a) s = .next { s with fault := true, fcode := 2 })

/-- R100, R101: the slots by bit range and by shift amount, and assembly as the inverse of extraction. -/
def Obligations.NibbleAndPackAreInverse : Prop :=
  (∀ w : Word, nibble w 0 = w.extractLsb' 12 4 ∧ nibble w 1 = w.extractLsb' 4 4 ∧
      nibble w 2 = w.extractLsb' 8 4 ∧ nibble w 3 = w.extractLsb' 0 4) ∧
    (∀ (w : Word) (i : Fin 4), nibble w i = (w >>> ([12, 4, 8, 0].getD i.val 0)).extractLsb' 0 4) ∧
    (∀ n0 n1 n2 n3 : Nibble, pack4 n0 n1 n2 n3 = n0 ++ n2 ++ n1 ++ n3 ∧
      nibble (pack4 n0 n1 n2 n3) 0 = n0 ∧ nibble (pack4 n0 n1 n2 n3) 1 = n1 ∧
      nibble (pack4 n0 n1 n2 n3) 2 = n2 ∧ nibble (pack4 n0 n1 n2 n3) 3 = n3) ∧
    (∀ w : Word, pack4 (nibble w 0) (nibble w 1) (nibble w 2) (nibble w 3) = w)

/-- R107: the word from its slots and from its bytes, the bytes from the slots, a nibble from its row and column, and no
fault of the family on legal operands. -/
def Obligations.NibbleOpsRebuildTheirOperand : Prop :=
  (∀ w : Word, w = nibble w 0 ++ nibble w 2 ++ nibble w 1 ++ nibble w 3 ∧ w = highByte w ++ lowByte w ∧
      highByte w = nibble w 0 ++ nibble w 2 ∧ lowByte w = nibble w 1 ++ nibble w 3) ∧
    (∀ n : Nibble, n = nibbleRow n ++ nibbleCol n ∧ n.toNat = 4 * (nibbleRow n).toNat + (nibbleCol n).toNat) ∧
    (∀ (i : Instr) (s : State), i.mnemonic ∈ ([.nib, .lob, .hib, .hi2, .lo2] : List Mnemonic) →
      i.wellFormed = true → s.Accepting → ∃ t, exec i s = .next t ∧ t.fault = false)

/-! ### Substitution Box (42_sbox.md) -/

/-- R123, by the table of R121 in the order of the nibble's value. -/
def Obligations.SboxReadsForwardTable : Prop :=
  ∀ (a b : Word) (s : State), s.Accepting →
    decode (cmdWord 0x08 a b) = .ok (.sbox a) ∧
      (a ≤ 0xF → exec (.sbox a) s = .next { s with
        y := ([0x9, 0x4, 0xA, 0xB, 0xD, 0x1, 0x8, 0x5, 0x6, 0x2, 0x0, 0x3, 0xC, 0xE, 0xF, 0x7] : List Word).getD a.toNat 0
        yv := true }) ∧
      (0xF < a → exec (.sbox a) s = .next { s with fault := true, fcode := 2 })

/-- R124, by the table of R122 in the order of the nibble's value. -/
def Obligations.IsboxReadsInverseTable : Prop :=
  ∀ (a b : Word) (s : State), s.Accepting →
    decode (cmdWord 0x09 a b) = .ok (.isbox a) ∧
      (a ≤ 0xF → exec (.isbox a) s = .next { s with
        y := ([0xA, 0x5, 0x9, 0xB, 0x1, 0x7, 0x8, 0xF, 0x6, 0x0, 0x2, 0x3, 0xC, 0x4, 0xD, 0xE] : List Word).getD a.toNat 0
        yv := true }) ∧
      (0xF < a → exec (.isbox a) s = .next { s with fault := true, fcode := 2 })

/-- R126, nibble by nibble as the second form of R125 writes it. -/
def Obligations.SubnibSubstitutesEachNibble : Prop :=
  ∀ (a b : Word) (s : State), s.Accepting →
    decode (cmdWord 0x0A a b) = .ok (.subnib a) ∧
      exec (.subnib a) s = .next { s with
        y := substitute (a.extractLsb' 12 4) false ++ substitute (a.extractLsb' 8 4) false ++
          substitute (a.extractLsb' 4 4) false ++ substitute (a.extractLsb' 0 4) false
        yv := true }

/-- R127, nibble by nibble as the second form of R125 writes it. -/
def Obligations.IsubnibSubstitutesEachNibble : Prop :=
  ∀ (a b : Word) (s : State), s.Accepting →
    decode (cmdWord 0x0B a b) = .ok (.isubnib a) ∧
      exec (.isubnib a) s = .next { s with
        y := substitute (a.extractLsb' 12 4) true ++ substitute (a.extractLsb' 8 4) true ++
          substitute (a.extractLsb' 4 4) true ++ substitute (a.extractLsb' 0 4) true
        yv := true }

/-- R51, R120, R121, R122: `substitute` is the element at row `n[3:2]`, column `n[1:0]` of the table, which is entry
number `n` of the table read row by row. -/
def Obligations.SubstituteIsTableLookup : Prop :=
  ∀ n : Nibble,
    substitute n false = ((([[9, 4, 0xA, 0xB], [0xD, 1, 8, 5], [6, 2, 0, 3], [0xC, 0xE, 0xF, 7]] :
        List (List Nibble)).getD (n.extractLsb' 2 2).toNat []).getD (n.extractLsb' 0 2).toNat 0) ∧
      substitute n false = ([9, 4, 0xA, 0xB, 0xD, 1, 8, 5, 6, 2, 0, 3, 0xC, 0xE, 0xF, 7] : List Nibble).getD n.toNat 0 ∧
      substitute n true = ((([[0xA, 5, 9, 0xB], [1, 7, 8, 0xF], [6, 0, 2, 3], [0xC, 4, 0xD, 0xE]] :
        List (List Nibble)).getD (n.extractLsb' 2 2).toNat []).getD (n.extractLsb' 0 2).toNat 0) ∧
      substitute n true = ([0xA, 5, 9, 0xB, 1, 7, 8, 0xF, 6, 0, 2, 3, 0xC, 4, 0xD, 0xE] : List Nibble).getD n.toNat 0 ∧
      romRead (.sbox n) = substitute n false ∧ romRead (.isbox n) = substitute n true

/-- R125: by slots and by bit ranges, each output nibble from the input nibble at the same position. -/
def Obligations.SubNibblesNeverReorders : Prop :=
  ∀ (w : Word) (inverse : Bool),
    subNibbles w inverse = pack4 (substitute (nibble w 0) inverse) (substitute (nibble w 1) inverse)
        (substitute (nibble w 2) inverse) (substitute (nibble w 3) inverse) ∧
      subNibbles w inverse = substitute (w.extractLsb' 12 4) inverse ++ substitute (w.extractLsb' 8 4) inverse ++
        substitute (w.extractLsb' 4 4) inverse ++ substitute (w.extractLsb' 0 4) inverse ∧
      ∀ i : Fin 4, nibble (subNibbles w inverse) i = substitute (nibble w i) inverse

/-- R128: the tables invert each other, on nibbles and on words; the forward table is a bijection, no involution, with
one fixed point. -/
def Obligations.SubstitutionTablesInvertEachOther : Prop :=
  (∀ n : Nibble, substitute (substitute n false) true = n ∧ substitute (substitute n true) false = n) ∧
    (∀ w : Word, subNibbles (subNibbles w false) true = w ∧ subNibbles (subNibbles w true) false = w) ∧
    (∀ n m : Nibble, substitute n false = substitute m false → n = m) ∧
    (∀ m : Nibble, ∃ n, substitute n false = m) ∧
    substitute (substitute 0 false) false = 2 ∧
    (∀ n : Nibble, substitute n false = n ↔ n = 0xC)

/-! ### GF16 Arithmetic (43_gf16.md) -/

/-- R144, with the product of R141. -/
def Obligations.GfmulMultipliesNibbles : Prop :=
  ∀ (a b : Word) (s : State), s.Accepting →
    decode (cmdWord 0x0C a b) = .ok (.gfmul a b) ∧
      (a ≤ 0xF → b ≤ 0xF → exec (.gfmul a b) s = .next { s with
        y := (gfmul (a.extractLsb' 0 4) (b.extractLsb' 0 4)).setWidth 16
        yv := true }) ∧
      (0xF < a ∨ 0xF < b → exec (.gfmul a b) s = .next { s with fault := true, fcode := 2 })

/-- R142: the table as the spec prints it, row `a`, column `b`, is `gfmul(a, b)`; it is what GFMUL_ROM holds at `{a, b}`;
and both forms of R141 give it. -/
def Obligations.GfmulFormsAgreeWithTable : Prop :=
  ∀ a b : Nibble, gfmul a b = ((
    ([[0x0, 0x0, 0x0, 0x0, 0x0, 0x0, 0x0, 0x0, 0x0, 0x0, 0x0, 0x0, 0x0, 0x0, 0x0, 0x0],
      [0x0, 0x1, 0x2, 0x3, 0x4, 0x5, 0x6, 0x7, 0x8, 0x9, 0xA, 0xB, 0xC, 0xD, 0xE, 0xF],
      [0x0, 0x2, 0x4, 0x6, 0x8, 0xA, 0xC, 0xE, 0x3, 0x1, 0x7, 0x5, 0xB, 0x9, 0xF, 0xD],
      [0x0, 0x3, 0x6, 0x5, 0xC, 0xF, 0xA, 0x9, 0xB, 0x8, 0xD, 0xE, 0x7, 0x4, 0x1, 0x2],
      [0x0, 0x4, 0x8, 0xC, 0x3, 0x7, 0xB, 0xF, 0x6, 0x2, 0xE, 0xA, 0x5, 0x1, 0xD, 0x9],
      [0x0, 0x5, 0xA, 0xF, 0x7, 0x2, 0xD, 0x8, 0xE, 0xB, 0x4, 0x1, 0x9, 0xC, 0x3, 0x6],
      [0x0, 0x6, 0xC, 0xA, 0xB, 0xD, 0x7, 0x1, 0x5, 0x3, 0x9, 0xF, 0xE, 0x8, 0x2, 0x4],
      [0x0, 0x7, 0xE, 0x9, 0xF, 0x8, 0x1, 0x6, 0xD, 0xA, 0x3, 0x4, 0x2, 0x5, 0xC, 0xB],
      [0x0, 0x8, 0x3, 0xB, 0x6, 0xE, 0x5, 0xD, 0xC, 0x4, 0xF, 0x7, 0xA, 0x2, 0x9, 0x1],
      [0x0, 0x9, 0x1, 0x8, 0x2, 0xB, 0x3, 0xA, 0x4, 0xD, 0x5, 0xC, 0x6, 0xF, 0x7, 0xE],
      [0x0, 0xA, 0x7, 0xD, 0xE, 0x4, 0x9, 0x3, 0xF, 0x5, 0x8, 0x2, 0x1, 0xB, 0x6, 0xC],
      [0x0, 0xB, 0x5, 0xE, 0xA, 0x1, 0xF, 0x4, 0x7, 0xC, 0x2, 0x9, 0xD, 0x6, 0x8, 0x3],
      [0x0, 0xC, 0xB, 0x7, 0x5, 0x9, 0xE, 0x2, 0xA, 0x6, 0x1, 0xD, 0xF, 0x3, 0x4, 0x8],
      [0x0, 0xD, 0x9, 0x4, 0x1, 0xC, 0x8, 0x5, 0x2, 0xF, 0xB, 0x6, 0x3, 0xE, 0xA, 0x7],
      [0x0, 0xE, 0xF, 0x1, 0xD, 0x3, 0x2, 0xC, 0x9, 0x7, 0x6, 0x8, 0x4, 0xA, 0xB, 0x5],
      [0x0, 0xF, 0xD, 0x2, 0x9, 0x6, 0x4, 0xB, 0x1, 0xE, 0xC, 0x3, 0x8, 0x7, 0x5, 0xA]] : List (List Nibble)).getD a.toNat []).getD b.toNat 0) ∧
    gfmulShiftReduce a b = gfmul a b ∧ romRead (.gfmul (a ++ b)) = gfmul a b

/-- R143: the laws of the product, and the inverses it lists. -/
def Obligations.GfmulIsFieldProduct : Prop :=
  (∀ a b : Nibble, gfmul a b = gfmul b a) ∧ (∀ x : Nibble, gfmul 0 x = 0 ∧ gfmul 1 x = x) ∧
    (∀ a b c : Nibble, gfmul a (gfmul b c) = gfmul (gfmul a b) c) ∧
    (∀ a b c : Nibble, gfmul a (b ^^^ c) = gfmul a b ^^^ gfmul a c) ∧
    (∀ a : Nibble, a ≠ 0 → ∃ x, gfmul a x = 1 ∧ ∀ z, gfmul a z = 1 → z = x) ∧
    (∀ p ∈ ([(1, 1), (2, 9), (3, 0xE), (4, 0xD), (5, 0xB), (6, 7), (8, 0xF), (0xA, 0xC)] : List (Nibble × Nibble)),
      gfmul p.1 p.2 = 1) ∧
    (∀ a b : Nibble, gfmul a b = 0 → a = 0 ∨ b = 0)

/-- R145: the rows of the constant multipliers 2, 4 and 9, and their bit equations, most significant bit first. -/
def Obligations.ConstantMultipliersFollowBitEquations : Prop :=
  ∀ x : Nibble,
    gfmul 2 x = ([0, 2, 4, 6, 8, 0xA, 0xC, 0xE, 3, 1, 7, 5, 0xB, 9, 0xF, 0xD] : List Nibble).getD x.toNat 0 ∧
      gfmul 4 x = ([0, 4, 8, 0xC, 3, 7, 0xB, 0xF, 6, 2, 0xE, 0xA, 5, 1, 0xD, 9] : List Nibble).getD x.toNat 0 ∧
      gfmul 9 x = ([0, 9, 1, 8, 2, 0xB, 3, 0xA, 4, 0xD, 5, 0xC, 6, 0xF, 7, 0xE] : List Nibble).getD x.toNat 0 ∧
      gfmul 2 x = BitVec.ofBool x[2] ++ BitVec.ofBool x[1] ++ BitVec.ofBool (x[0] ^^ x[3]) ++ BitVec.ofBool x[3] ∧
      gfmul 4 x = BitVec.ofBool x[1] ++ BitVec.ofBool (x[0] ^^ x[3]) ++ BitVec.ofBool (x[2] ^^ x[3]) ++ BitVec.ofBool x[2] ∧
      gfmul 9 x = gfmul 8 x ^^^ x ∧
      gfmul 8 x = BitVec.ofBool (x[0] ^^ x[3]) ++ BitVec.ofBool (x[2] ^^ x[3]) ++ BitVec.ofBool (x[1] ^^ x[2]) ++
        BitVec.ofBool x[1]

/-! ### Round Transform (44_round_transform.md) -/

/-- R161: the key is operand `b`; the command neither reads nor needs KV. -/
def Obligations.ArkXorsItsOperands : Prop :=
  ∀ (a b : Word) (s : State), s.Accepting →
    decode (cmdWord 0x10 a b) = .ok (.ark a b) ∧ exec (.ark a b) s = .next { s with y := a ^^^ b, yv := true }

/-- R162, R163: S10 and S11 change places, and doing so twice restores the word. -/
def Obligations.ShrowSwapsSecondRow : Prop :=
  ∀ (a b : Word) (s : State), s.Accepting →
    decode (cmdWord 0x11 a b) = .ok (.shrow a) ∧
      exec (.shrow a) s = .next { s with
        y := a.extractLsb' 12 4 ++ a.extractLsb' 0 4 ++ a.extractLsb' 4 4 ++ a.extractLsb' 8 4
        yv := true } ∧
      shiftRow a = pack4 (nibble a 0) (nibble a 1) (nibble a 3) (nibble a 2) ∧ shiftRow (shiftRow a) = a

/-- R166, by the four equations of R164. -/
def Obligations.MixcolMixesColumns : Prop :=
  ∀ (a b : Word) (s : State), s.Accepting →
    let s00 := a.extractLsb' 12 4
    let s10 := a.extractLsb' 8 4
    let s01 := a.extractLsb' 4 4
    let s11 := a.extractLsb' 0 4
    decode (cmdWord 0x12 a b) = .ok (.mixcol a) ∧
      exec (.mixcol a) s = .next { s with
        y := (s00 ^^^ gfmul 4 s10) ++ (s10 ^^^ gfmul 4 s00) ++ (s01 ^^^ gfmul 4 s11) ++ (s11 ^^^ gfmul 4 s01)
        yv := true }

/-- R167, by the four equations of R165. -/
def Obligations.ImixcolUnmixesColumns : Prop :=
  ∀ (a b : Word) (s : State), s.Accepting →
    let s00 := a.extractLsb' 12 4
    let s10 := a.extractLsb' 8 4
    let s01 := a.extractLsb' 4 4
    let s11 := a.extractLsb' 0 4
    decode (cmdWord 0x13 a b) = .ok (.imixcol a) ∧
      exec (.imixcol a) s = .next { s with
        y := (gfmul 9 s00 ^^^ gfmul 2 s10) ++ (gfmul 2 s00 ^^^ gfmul 9 s10) ++
          (gfmul 9 s01 ^^^ gfmul 2 s11) ++ (gfmul 2 s01 ^^^ gfmul 9 s11)
        yv := true }

/-- R169, with R168 written in bits. -/
def Obligations.RotnibSwapsNibbles : Prop :=
  ∀ (a b : Word) (s : State), s.Accepting →
    decode (cmdWord 0x14 a b) = .ok (.rotnib a) ∧
      (a ≤ 0xFF → exec (.rotnib a) s = .next { s with
        y := (a.extractLsb' 0 4 ++ a.extractLsb' 4 4).setWidth 16
        yv := true }) ∧
      (0xFF < a → exec (.rotnib a) s = .next { s with fault := true, fcode := 2 })

/-- R164, R165: the column transforms, the byte form of MixColumns, and that the two matrices are inverse. -/
def Obligations.MixColumnsTransformsInvertEachOther : Prop :=
  (∀ w : Word, mixColumns w =
      (nibble w 0 ^^^ gfmul 4 (nibble w 2)) ++ (nibble w 2 ^^^ gfmul 4 (nibble w 0)) ++
        (nibble w 1 ^^^ gfmul 4 (nibble w 3)) ++ (nibble w 3 ^^^ gfmul 4 (nibble w 1))) ∧
    (∀ w : Word,
      let mixbyte : Byte → Byte := fun b =>
        (b.extractLsb' 4 4 ^^^ gfmul 4 (b.extractLsb' 0 4)) ++ (b.extractLsb' 0 4 ^^^ gfmul 4 (b.extractLsb' 4 4))
      mixColumns w = mixbyte (w.extractLsb' 8 8) ++ mixbyte (w.extractLsb' 0 8)) ∧
    (∀ w : Word, invMixColumns w =
      (gfmul 9 (nibble w 0) ^^^ gfmul 2 (nibble w 2)) ++ (gfmul 2 (nibble w 0) ^^^ gfmul 9 (nibble w 2)) ++
        (gfmul 9 (nibble w 1) ^^^ gfmul 2 (nibble w 3)) ++ (gfmul 2 (nibble w 1) ^^^ gfmul 9 (nibble w 3))) ∧
    (∀ w : Word, invMixColumns (mixColumns w) = w ∧ mixColumns (invMixColumns w) = w) ∧
    gfmul 1 9 ^^^ gfmul 4 2 = 1 ∧ gfmul 1 2 ^^^ gfmul 4 9 = 0

/-- R160, R170: the involutions and inverses of the round operations, that ShiftRow and SubNibbles commute, and which of
them are linear. -/
def Obligations.RoundTransformLaws : Prop :=
  (∀ w k : Word, addRoundKey w k = w ^^^ k ∧ addRoundKey (addRoundKey w k) k = w ∧ addRoundKey w k = addRoundKey k w ∧
      addRoundKey w 0 = w ∧ addRoundKey w w = 0) ∧
    (∀ w : Word, shiftRow (shiftRow w) = w ∧ invMixColumns (mixColumns w) = w) ∧
    (∀ (w : Word) (inverse : Bool), shiftRow (subNibbles w inverse) = subNibbles (shiftRow w) inverse) ∧
    (∀ u v : Word, mixColumns (u ^^^ v) = mixColumns u ^^^ mixColumns v ∧
      invMixColumns (u ^^^ v) = invMixColumns u ^^^ invMixColumns v) ∧
    (∀ inverse : Bool, ∃ u v : Word, subNibbles (u ^^^ v) inverse ≠ subNibbles u inverse ^^^ subNibbles v inverse)

/-! ### Key Schedule (45_key_schedule.md) -/

/-- R168, R191, R193: RotNib, SubByte (and how it differs from SubNibbles of the extended byte), and g in both orders. -/
def Obligations.KeyByteFunctions : Prop :=
  ∀ b : Byte,
    rotNib b = b.extractLsb' 0 4 ++ b.extractLsb' 4 4 ∧ rotNib (rotNib b) = b ∧
      subByte b = substitute (b.extractLsb' 4 4) false ++ substitute (b.extractLsb' 0 4) false ∧
      lowByte (subNibbles (b.setWidth 16) false) = subByte b ∧ highByte (subNibbles (b.setWidth 16) false) = 0x99 ∧
      g b = subByte (rotNib b) ∧ g b = rotNib (subByte b) ∧
      g b = substitute (b.extractLsb' 0 4) false ++ substitute (b.extractLsb' 4 4) false

/-- R195, with R193 written in bits. -/
def Obligations.GfuncComputesG : Prop :=
  ∀ (a b : Word) (s : State), s.Accepting →
    decode (cmdWord 0x19 a b) = .ok (.gfunc a) ∧
      (a ≤ 0xFF → exec (.gfunc a) s = .next { s with
        y := (substitute (a.extractLsb' 0 4) false ++ substitute (a.extractLsb' 4 4) false).setWidth 16
        yv := true }) ∧
      (0xFF < a → exec (.gfunc a) s = .next { s with fault := true, fcode := 2 })

/-- R190, R194: the round constants, the equations of the key schedule, K0 is the key; and different keys give different
sequences (R197). -/
def Obligations.ExpandKeyFollowsSchedule : Prop :=
  rcon1 = 0b10000000 ∧ rcon2 = 0b00110000 ∧ (∀ key : Word,
      let w0 := key.extractLsb' 8 8
      let w1 := key.extractLsb' 0 8
      let w2 := w0 ^^^ 0x80#8 ^^^ g w1
      let w3 := w2 ^^^ w1
      let w4 := w2 ^^^ 0x30#8 ^^^ g w3
      let w5 := w4 ^^^ w3
      (expandKey key).k0 = w0 ++ w1 ∧ (expandKey key).k1 = w2 ++ w3 ∧ (expandKey key).k2 = w4 ++ w5 ∧
        (expandKey key).k0 = key) ∧
    (∀ k k' : Word, expandKey k = expandKey k' → k = k')

/-- R196: all three round-key registers and KV in one step, seen on their ports, Y and YV untouched, whatever keys were
there before; the same EXPAND again changes nothing. -/
def Obligations.ExpandLoadsRoundKeys : Prop :=
  ∀ (a b : Word) (s : State), s.Accepting →
    decode (cmdWord 0x18 a b) = .ok (.expand a) ∧
      ∃ t, exec (.expand a) s = .next t ∧
        t = { s with rk0 := (expandKey a).k0, rk1 := (expandKey a).k1, rk2 := (expandKey a).k2, kv := true } ∧
        t.y = s.y ∧ t.yv = s.yv ∧ exec (.expand a) t = .next t ∧
        t.ports.rk0 = some (expandKey a).k0 ∧ t.ports.rk1 = some (expandKey a).k1 ∧
        t.ports.rk2 = some (expandKey a).k2 ∧ t.ports.kv = true

/-! ### Cipher Pipeline (46_cipher_pipeline.md) -/

/-- R211, R212: the eight stages on the stored round keys, which stay; NO_KEY without them. -/
def Obligations.EncRunsEncryptPipeline : Prop :=
  ∀ (a b : Word) (s : State), s.Accepting →
    let s1 := a ^^^ s.rk0
    let s2 := subNibbles s1 false
    let s3 := shiftRow s2
    let s4 := mixColumns s3
    let s5 := s4 ^^^ s.rk1
    let s6 := subNibbles s5 false
    let s7 := shiftRow s6
    let s8 := s7 ^^^ s.rk2
    decode (cmdWord 0x1C a b) = .ok (.enc a) ∧
      (s.kv = true → exec (.enc a) s = .next { s with y := s8, yv := true }) ∧
      (s.kv = false → exec (.enc a) s = .next { s with fault := true, fcode := 3 })

/-- R213, R214: the eight stages on the stored round keys, which stay; NO_KEY without them; no other fault, whatever the
block and whatever keys are stored (R216). -/
def Obligations.DecRunsDecryptPipeline : Prop :=
  ∀ (a b : Word) (s : State), s.Accepting →
    let t1 := a ^^^ s.rk2
    let t2 := shiftRow t1
    let t3 := subNibbles t2 true
    let t4 := t3 ^^^ s.rk1
    let t5 := invMixColumns t4
    let t6 := shiftRow t5
    let t7 := subNibbles t6 true
    let t8 := t7 ^^^ s.rk0
    decode (cmdWord 0x1D a b) = .ok (.dec a) ∧
      (s.kv = true → exec (.dec a) s = .next { s with y := t8, yv := true }) ∧
      (s.kv = false → exec (.dec a) s = .next { s with fault := true, fcode := 3 })

/-- R215: Decrypt and Encrypt are two-sided inverses for every triple of round keys, and so for an expanded key; and on the
core, `EXPAND k ; ENC p ; DEC y` ends with Y = p, `EXPAND k ; DEC c ; ENC y` with Y = c. -/
def Obligations.CipherRoundTrip : Prop :=
  (∀ (block : Word) (k : RoundKeys), decrypt (encrypt block k) k = block ∧ encrypt (decrypt block k) k = block) ∧
    (∀ key block : Word, decrypt (encrypt block (expandKey key)) (expandKey key) = block) ∧
    (∀ (key p : Word) (s : State), s.Accepting →
      ∃ t u v, exec (.expand key) s = .next t ∧ exec (.enc p) t = .next u ∧ exec (.dec u.y) u = .next v ∧ v.y = p) ∧
    (∀ (key c : Word) (s : State), s.Accepting →
      ∃ t u v, exec (.expand key) s = .next t ∧ exec (.dec c) t = .next u ∧ exec (.enc u.y) u = .next v ∧ v.y = c)

/-- R217: ENC is the same as its eight stage commands, the host copying port `y` into the next operand and taking the keys
from ports `rk0`, `rk1`, `rk2`, and so is DEC: the same last state. After every stage port `y` shows Y (R32), and the Y of
each stage is that of the stage functions of R211 and R213. -/
def Obligations.CipherEqualsItsStageCommands : Prop :=
  ∀ (a : Word) (s : State), s.Accepting → s.kv = true →
    (s.ports.rk0 = some s.rk0 ∧ s.ports.rk1 = some s.rk1 ∧ s.ports.rk2 = some s.rk2) ∧
    (∃ t1 t2 t3 t4 t5 t6 t7 t8,
      exec (.ark a s.rk0) s = .next t1 ∧ exec (.subnib t1.y) t1 = .next t2 ∧ exec (.shrow t2.y) t2 = .next t3 ∧
        exec (.mixcol t3.y) t3 = .next t4 ∧ exec (.ark t4.y s.rk1) t4 = .next t5 ∧
        exec (.subnib t5.y) t5 = .next t6 ∧ exec (.shrow t6.y) t6 = .next t7 ∧ exec (.ark t7.y s.rk2) t7 = .next t8 ∧
        exec (.enc a) s = .next t8 ∧
        (∀ t ∈ [t1, t2, t3, t4, t5, t6, t7, t8], t.ports.y = some t.y ∧ t.ports.rk0 = s.ports.rk0 ∧
          t.ports.rk1 = s.ports.rk1 ∧ t.ports.rk2 = s.ports.rk2) ∧
        t1.y = addRoundKey a s.rk0 ∧ t2.y = subNibbles t1.y false ∧ t3.y = shiftRow t2.y ∧ t4.y = mixColumns t3.y ∧
        t5.y = addRoundKey t4.y s.rk1 ∧ t6.y = subNibbles t5.y false ∧ t7.y = shiftRow t6.y ∧
        t8.y = addRoundKey t7.y s.rk2) ∧
    (∃ t1 t2 t3 t4 t5 t6 t7 t8,
      exec (.ark a s.rk2) s = .next t1 ∧ exec (.shrow t1.y) t1 = .next t2 ∧ exec (.isubnib t2.y) t2 = .next t3 ∧
        exec (.ark t3.y s.rk1) t3 = .next t4 ∧ exec (.imixcol t4.y) t4 = .next t5 ∧
        exec (.shrow t5.y) t5 = .next t6 ∧ exec (.isubnib t6.y) t6 = .next t7 ∧ exec (.ark t7.y s.rk0) t7 = .next t8 ∧
        exec (.dec a) s = .next t8 ∧
        (∀ t ∈ [t1, t2, t3, t4, t5, t6, t7, t8], t.ports.y = some t.y ∧ t.ports.rk0 = s.ports.rk0 ∧
          t.ports.rk1 = s.ports.rk1 ∧ t.ports.rk2 = s.ports.rk2) ∧
        t1.y = addRoundKey a s.rk2 ∧ t2.y = shiftRow t1.y ∧ t3.y = subNibbles t2.y true ∧
        t4.y = addRoundKey t3.y s.rk1 ∧ t5.y = invMixColumns t4.y ∧ t6.y = shiftRow t5.y ∧
        t7.y = subNibbles t6.y true ∧ t8.y = addRoundKey t7.y s.rk0)

/-! ### Encoding (30_encoding.md) -/

/-- Words written out from R71 and R74 (95_test_vectors.md sections 2 and 3), one of each family. -/
def Obligations.SpecWordsDecode : Prop :=
  decode 0x0112340002 = .ok (.nib 0x1234 0x0002) ∧ decode 0x0800060000 = .ok (.sbox 0x0006) ∧
    decode 0x0C0006000B = .ok (.gfmul 0x0006 0x000B) ∧ decode 0x1012344AF5 = .ok (.ark 0x1234 0x4AF5) ∧
    decode 0x184AF50000 = .ok (.expand 0x4AF5) ∧ decode 0x1CD7280000 = .ok (.enc 0xD728) ∧
    decode 0x02FFFF1234 = .ok (.lob 0xFFFF) ∧ decode 0x1F12345678 = .error (.reservedOpcode 0x1F)

/-- R70, R71, R74: decoding the word of any command gives it back, every operand at every 16-bit value. -/
def Obligations.DecodeEncodeIsIdentity : Prop := ∀ i : Instr, decode (encode i) = .ok i

/-- R71, R77, R81: the word of a decoded command is the word it came from, with zero in an unused `b`. -/
def Obligations.EncodeDecodeIsCanonical : Prop :=
  ∀ (w : CmdWord) (i : Instr), decode w = .ok i →
    opField (encode i) = opField w ∧ aField (encode i) = aField w ∧
      (opField w ∈ ([0x01, 0x0C, 0x10] : List Opcode) → bField (encode i) = bField w) ∧
      (opField w ∉ ([0x01, 0x0C, 0x10] : List Opcode) → bField (encode i) = 0) ∧ decode (encode i) = .ok i

/-- R77: `b` is ignored by every command other than NIB, GFMUL and ARK: any two values of it give the same answer, and the
assembler writes zero where it is omitted. -/
def Obligations.UnusedOperandIsIgnored : Prop :=
  (∀ (op : Opcode) (a b b' : Word) (s : State), op ∉ ([0x01, 0x0C, 0x10] : List Opcode) →
      present (.cmd (cmdWord op a b)) s = present (.cmd (cmdWord op a b')) s) ∧
    (∀ i : Instr, i.mnemonic ∉ ([.nib, .gfmul, .ark] : List Mnemonic) → bField (encode i) = 0)

/-- R78, R231: exactly the 13 listed opcodes name no command, and a word with one takes ILLEGAL_OP whatever its operands. -/
def Obligations.ReservedOpcodesAreIllegal : Prop :=
  (∀ w : CmdWord, (∃ i, decode w = .ok i) ↔ opField w ∉
      ([0x00, 0x06, 0x07, 0x0D, 0x0E, 0x0F, 0x15, 0x16, 0x17, 0x1A, 0x1B, 0x1E, 0x1F] : List Opcode)) ∧
    (∀ (op : Opcode) (a b : Word) (s : State), s.Accepting →
      op ∈ ([0x00, 0x06, 0x07, 0x0D, 0x0E, 0x0F, 0x15, 0x16, 0x17, 0x1A, 0x1B, 0x1E, 0x1F] : List Opcode) →
      present (.cmd (cmdWord op a b)) s = .next { s with fault := true, fcode := 1 })

/-- R79: every one of the 2^37 words is a command with legal operands, or faults by R76, or faults by R78; and no two rows
of the table select one word (R74: `(cmd & mask) = match`). -/
def Obligations.EveryWordHasOneOutcome : Prop :=
  (∀ w : CmdWord,
      (∃ i, decode w = .ok i ∧ i.wellFormed = true) ∨
        (∃ i, decode w = .ok i ∧ i.wellFormed = false ∧
          ∀ s : State, s.Accepting → present (.cmd w) s = .next { s with fault := true, fcode := 2 }) ∨
        (opField w ∈ reservedOpcodes ∧
          ∀ s : State, s.Accepting → present (.cmd w) s = .next { s with fault := true, fcode := 1 })) ∧
    (∀ (w : CmdWord) (m : Mnemonic), w &&& 0x1F00000000 = m.matchWord ↔ mnemonicOf (opField w) = some m)

/-- R82: what each pseudo-command does to a core that accepts commands, and its assembly-time errors. -/
def Obligations.PseudoCommandsExpand : Prop :=
  (∀ (key block : Word) (s : State), s.Accepting →
      ∃ ps t, expandPseudo (.encrypt key block) = some ps ∧ presentAll (ps.map Pins.input) s = .next t ∧
        presentAll [.cmd (encode (.expand key)), .cmd (encode (.enc block))] s = .next t ∧
        t.y = encrypt block (expandKey key) ∧ t.yv = true ∧ t.fault = false ∧
        ∃ u, present (.cmd (encode (.expand key))) s = .next u ∧ u.y = s.y) ∧
    (∀ (key block : Word) (s : State), s.Accepting →
      ∃ ps t, expandPseudo (.decrypt key block) = some ps ∧ presentAll (ps.map Pins.input) s = .next t ∧
        presentAll [.cmd (encode (.expand key)), .cmd (encode (.dec block))] s = .next t ∧
        t.y = decrypt block (expandKey key) ∧ t.yv = true ∧ t.fault = false ∧
        ∃ u, present (.cmd (encode (.expand key))) s = .next u ∧ u.y = s.y) ∧
    (∀ n inv : Word,
      (inv = 0 → (expandPseudo (.sub n inv)).map (List.map Pins.input) = some [.cmd (encode (.sbox n))] ∧
        (expandPseudo (.subnibbles n inv)).map (List.map Pins.input) = some [.cmd (encode (.subnib n))]) ∧
      (inv = 1 → (expandPseudo (.sub n inv)).map (List.map Pins.input) = some [.cmd (encode (.isbox n))] ∧
        (expandPseudo (.subnibbles n inv)).map (List.map Pins.input) = some [.cmd (encode (.isubnib n))]) ∧
      (1 < inv → expandPseudo (.sub n inv) = none ∧ expandPseudo (.subnibbles n inv) = none)) ∧
    (expandPseudo .nop).map (List.map Pins.input) = some [.idle]

/-! ### The step, the faults and reset (10_state.md, 60_exceptions.md, 70_reset_and_hazards.md) -/

/-- When the pins of the step present a word that decodes to `i`, the step is `exec i` on the state in which those pins are
consumed: nothing else happens around it (10_state.md R30, R32). That the pins come from a list in the state is the
model's choice (log entry 2). -/
def Obligations.StepRunsDecodedCommand : Prop :=
  ∀ (s : State) (p : Pins) (rest : List Pins) (i : Instr),
    s.pending = p :: rest → p.rst = false → p.cmdValid = true → decode (cmdWord p.cmdOp p.cmdA p.cmdB) = .ok i →
      step s = exec i { s with pending := rest }

/-- R61, R270: running the core until the host's inputs are used up is the left-to-right composition of the step function
on those inputs, in the order the host presents them. That the inputs stand in the state is the model's choice (log entry
2). -/
def Obligations.RunIsCompositionOfInputs : Prop :=
  ∀ s : State, Host.Core.run core s.pending.length s = presentAll (s.pending.map Pins.input) { s with pending := [] }

/-- R30, R80: the step function, clause by clause in its order: reset, idle, a faulted core, a reserved opcode, an operand
out of range, ENC or DEC without keys, and otherwise the command, which takes no fault. -/
def Obligations.PresentFollowsStepFunction : Prop :=
  ∀ s : State,
    (∃ t, present .reset s = .next t ∧ t.kv = false ∧ t.yv = false ∧ t.fault = false ∧ t.fcode = 0) ∧
      present .idle s = .next s ∧
      ∀ w : CmdWord,
        if s.fault = true then present (.cmd w) s = .next s
        else if opField w ∈ reservedOpcodes then present (.cmd w) s = .next { s with fault := true, fcode := 1 }
        else if OperandOutOfRange (opField w) (aField w) (bField w) then
          present (.cmd w) s = .next { s with fault := true, fcode := 2 }
        else if UsesRoundKeys (opField w) ∧ s.kv = false then
          present (.cmd w) s = .next { s with fault := true, fcode := 3 }
        else ∃ i t, decode w = .ok i ∧ present (.cmd w) s = exec i s ∧ exec i s = .next t ∧
          t.fault = false ∧ t.fcode = s.fcode

/-- R76, R232: an operand out of range takes OPERAND_RANGE, whatever the operand's low bits, and the commands of full words
never do. -/
def Obligations.OperandOutOfRangeFaults : Prop :=
  ∀ (op : Opcode) (a b : Word) (s : State), s.Accepting → s.FaultCodeAgrees →
    (OperandOutOfRange op a b → present (.cmd (cmdWord op a b)) s = .next { s with fault := true, fcode := 2 }) ∧
      (op ∈ ([0x02, 0x03, 0x0A, 0x0B, 0x10, 0x11, 0x12, 0x13, 0x18, 0x1C, 0x1D] : List Opcode) →
        ∃ t, present (.cmd (cmdWord op a b)) s = .next t ∧ t.fcode ≠ 2) ∧
      (op ∉ reservedOpcodes → ¬ OperandOutOfRange op a b →
        ∃ t, present (.cmd (cmdWord op a b)) s = .next t ∧ t.fcode ≠ 2)

/-- R233: ENC or DEC before the first EXPAND after a reset, whatever the block and whatever the registers hold. -/
def Obligations.CipherWithoutKeysFaults : Prop :=
  (∀ (a : Word) (i : Instr) (s : State), s.Accepting → s.kv = false → i = .enc a ∨ i = .dec a →
      exec i s = .next { s with fault := true, fcode := 3 }) ∧
    (∀ s t : State, present .reset s = .next t → t.kv = false) ∧
    (∀ (i : Instr) (s t : State), exec i s = .next t → t.kv = true → s.kv = true ∨ i.mnemonic = .expand)

/-- R234, on the machine: the cause a word takes is one and the same in every core that accepts commands, whatever else the
two cores hold; ILLEGAL_OP is taken only by a word that is no command, OPERAND_RANGE only by an ill-formed one of the eight
commands with restricted operands, NO_KEY only by ENC or DEC; no ill-formed command is ENC or DEC; GFMUL with both operands
out of range takes OPERAND_RANGE; and a step with `rst = 1` does what Reset does whatever the command port holds. -/
def Obligations.AtMostOneFaultCause : Prop :=
  (∀ (w : CmdWord) (s s' t t' : State), s.Accepting → s'.Accepting →
      present (.cmd w) s = .next t → present (.cmd w) s' = .next t' → t.fault = true → t'.fault = true →
      t.fcode = t'.fcode) ∧
    (∀ (w : CmdWord) (s t : State), s.Accepting → present (.cmd w) s = .next t → t.fault = true →
      (t.fcode = 1 → ∀ i, decode w ≠ .ok i) ∧
        (t.fcode = 2 → ∃ i, decode w = .ok i ∧ i.wellFormed = false ∧
          i.mnemonic ∈ ([.nib, .hi2, .lo2, .sbox, .isbox, .gfmul, .rotnib, .gfunc] : List Mnemonic)) ∧
        (t.fcode = 3 → ∃ i, decode w = .ok i ∧ i.wellFormed = true ∧ (i.mnemonic = .enc ∨ i.mnemonic = .dec))) ∧
    (∀ (w : CmdWord) (i : Instr), decode w = .ok i → i.wellFormed = false → i.mnemonic ≠ .enc ∧ i.mnemonic ≠ .dec) ∧
    (∀ (a b : Word) (s : State), s.Accepting → 0xF < a → 0xF < b →
      present (.cmd (cmdWord 0x0C a b)) s = .next { s with fault := true, fcode := 2 }) ∧
    (∀ (p : Pins) (s : State), p.rst = true → present p.input s = present .reset s)

/-- R236, R237: a command that takes a fault changes FAULT and FCODE and nothing else, in the same step; the code is one of
the three causes. -/
def Obligations.FaultsArePrecise : Prop :=
  ∀ (w : CmdWord) (s t : State), s.Accepting → present (.cmd w) s = .next t → t.fault = true →
    t = { s with fault := true, fcode := t.fcode } ∧ (t.fcode = 1 ∨ t.fcode = 2 ∨ t.fcode = 3)

/-- R238: while FAULT = 1 no list of commands and idle steps changes anything, FCODE included. -/
def Obligations.FaultedCoreIgnoresCommands : Prop :=
  ∀ (inputs : List Input) (s : State), s.fault = true → .reset ∉ inputs → presentAll inputs s = .next s

/-- A step with `rst = 1` shows ResetState on the ports, whatever the state and the other pins; the command in the same step
is discarded; two Reset steps leave the same state as one; nothing else clears KV, YV, FAULT or FCODE
(70_reset_and_hazards.md R260, R261). The ports that show no value, and that the pins of the steps to come stay, are the
model's (log entries 9 and 2). -/
def Obligations.ResetClearsFromAnyState : Prop :=
  (∀ (s : State) (p : Pins) (rest : List Pins), s.pending = p :: rest → p.rst = true →
      ∃ t, step s = .next t ∧ t.ports = clearedPorts ∧ t.pending = rest) ∧
    (∀ s : State, presentAll [.reset, .reset] s = presentAll [.reset] s) ∧
    (∀ (input : Input) (s t : State), input ≠ .reset → present input s = .next t →
      (s.kv = true → t.kv = true) ∧ (s.yv = true → t.yv = true) ∧ (s.fault = true → t.fault = true) ∧
        (s.fcode ≠ 0 → t.fcode ≠ 0))

/-- R27: which commands set which flag; a command that takes a fault sets FAULT alone; no input but Reset clears one; all
are 0 at reset. -/
def Obligations.CommandsSetOnlyTheirFlags : Prop :=
  (∀ (i : Instr) (s : State), s.Accepting →
      ∃ t, exec i s = .next t ∧
        (t.fault = false → t.kv = (s.kv || i.mnemonic == .expand) ∧ t.yv = (s.yv || i.mnemonic != .expand)) ∧
        (t.fault = true → t.kv = s.kv ∧ t.yv = s.yv)) ∧
    (∀ (input : Input) (s t : State), input ≠ .reset → present input s = .next t →
      (s.kv = true → t.kv = true) ∧ (s.yv = true → t.yv = true) ∧ (s.fault = true → t.fault = true)) ∧
    State.reset.kv = false ∧ State.reset.yv = false ∧ State.reset.fault = false

/-- ResetState as the host sees it (10_state.md R33): the flags and FCODE are 0; that the ports then show no value is the
model's reading of R29 (log entry 9). That RK0, RK1, RK2 and Y hold 0 inside is the model's choice (log entry 1) and no
part of this statement. -/
def Obligations.ResetStateShowsNoValue : Prop :=
  State.reset.kv = false ∧ State.reset.yv = false ∧ State.reset.fault = false ∧ State.reset.fcode = 0 ∧
    State.reset.ports = clearedPorts

/-- R262: after a Reset step, from whatever state, the 17 commands without round keys work at once on legal operands; ENC
and DEC take NO_KEY until an EXPAND has completed, and work after it. -/
def Obligations.CommandsAvailableAfterReset : Prop :=
  ∀ s r : State, present .reset s = .next r →
    (∀ i : Instr, i.mnemonic ≠ .enc → i.mnemonic ≠ .dec → i.wellFormed = true →
      ∃ t, exec i r = .next t ∧ t.fault = false ∧
        (i.mnemonic ≠ .expand → t.yv = true) ∧ (i.mnemonic = .expand → t.kv = true)) ∧
    (∀ i : Instr, i.mnemonic = .enc ∨ i.mnemonic = .dec → ∀ key : Word,
      (∃ t, exec i r = .next t ∧ t.fault = true ∧ t.fcode = 3) ∧
        ∃ t u, exec (.expand key) r = .next t ∧ exec i t = .next u ∧ u.fault = false ∧ u.yv = true)

/-! ### Whole-machine statements -/

/-- The frame of every command: what it leaves unchanged when it completes (R34, R23, R24), when it takes a fault (R236), and
when it is ignored (R30, R238; that `exec` itself tests FAULT is the model's choice, log entry 8). That there are pending
inputs in the state to leave unchanged is the model's choice (log entry 2). There is no memory to frame: no command stores (20_memory.md R50, R64). -/
def Obligations.CommandFrame : Prop :=
  ∀ (i : Instr) (s t : State), exec i s = .next t →
    t.pending = s.pending ∧
      (s.fault = true → t = s) ∧
      (s.fault = false → t.fault = true → t = { s with fault := true, fcode := t.fcode }) ∧
      (t.fault = false → i.mnemonic ≠ .expand → t = { s with y := t.y, yv := true }) ∧
      (t.fault = false → i.mnemonic = .expand → t = { s with rk0 := t.rk0, rk1 := t.rk1, rk2 := t.rk2, kv := true })

/-- R31: the result of a command other than ENC and DEC is a function of its operands alone; that of ENC and DEC of the
operand and the round-key registers. -/
def Obligations.DatapathIsPure : Prop :=
  ∀ (i : Instr) (s s' : State), s.Accepting → s'.Accepting → i.wellFormed = true →
    (i.mnemonic = .enc ∨ i.mnemonic = .dec →
      s.kv = true ∧ s'.kv = true ∧ s.rk0 = s'.rk0 ∧ s.rk1 = s'.rk1 ∧ s.rk2 = s'.rk2) →
    ∃ t t', exec i s = .next t ∧ exec i s' = .next t' ∧ t.fault = false ∧ t'.fault = false ∧
      (i.mnemonic ≠ .expand → t.y = t'.y) ∧
      (i.mnemonic = .expand → t.rk0 = t'.rk0 ∧ t.rk1 = t'.rk1 ∧ t.rk2 = t'.rk2)

/-- R29: no rule computes anything from a register that holds no value: two states that show the same on the ports, and
have the same inputs to come, step to states that show the same. So the values of log entry 1, which stand in RK0, RK1,
RK2 while KV = 0 and in Y while YV = 0, can never be seen. The ports that show no value are the model's reading (log
entry 9). -/
def Obligations.UnwrittenRegistersNeverMatter : Prop :=
  ∀ s s' : State, SameSeen s s' → ∃ t t', step s = .next t ∧ step s' = .next t' ∧ SameSeen t t'

/-- R28, R35: every step keeps the invariant: FCODE is not 0 exactly while FAULT = 1, and while KV = 1 the round-key
registers hold the expansion of the key in RK0. For every state that meets it, reached or not. -/
def Obligations.StepKeepsInvariant : Prop :=
  ∀ s t : State, s.Inv → step s = .next t → t.Inv

/-- The invariant of `StepKeepsInvariant` holds at reset. -/
def Obligations.ResetMeetsInvariant : Prop := State.reset.Inv

/-! ### The output ports (10_state.md R32) -/

/-- R32: in every state, reached or not, every output port shows its state element. The ports of registers that hold no
value (R29) show none: the model's reading (log entry 9). -/
def Obligations.PortsShowTheirElements : Prop :=
  ∀ s : State,
    (s.yv = true → s.ports.y = some s.y) ∧ (s.yv = false → s.ports.y = none) ∧
      (s.kv = true → s.ports.rk0 = some s.rk0 ∧ s.ports.rk1 = some s.rk1 ∧ s.ports.rk2 = some s.rk2) ∧
      (s.kv = false → s.ports.rk0 = none ∧ s.ports.rk1 = none ∧ s.ports.rk2 = none) ∧
      s.ports.yv = s.yv ∧ s.ports.kv = s.kv ∧ s.ports.fault = s.fault ∧ s.ports.fcode = s.fcode

/-- R32, R236, R238: what the ports show after a command: the result of one that completes, the round keys of EXPAND, the
fault and its code with everything else as it was (a result left in Y stays readable), and no change while FAULT = 1. The
ports a command does not touch, which may show no value, are the model's reading (log entry 9). -/
def Obligations.PortsAfterCommand : Prop :=
  ∀ (w : CmdWord) (s t : State), present (.cmd w) s = .next t →
    (s.fault = true → t.ports = s.ports) ∧
      (s.fault = false → t.fault = true →
        t.ports = { s.ports with fault := true, fcode := t.fcode } ∧ t.ports.fcode ≠ 0) ∧
      (t.fault = false → ∃ i, decode w = .ok i ∧
        (i.mnemonic ≠ .expand → t.ports = { s.ports with y := some t.y, yv := true }) ∧
        (∀ key, i = .expand key → t.ports = { s.ports with
          rk0 := some (expandKey key).k0
          rk1 := some (expandKey key).k1
          rk2 := some (expandKey key).k2
          kv := true }))
end

