-- ==== Sys2Proof/Config.lean ====
section
/-!
DEFINITION. What the spec leaves to an implementation. The cipher parameters are fixed constants of this hardware
(00_scope.md R5: "none is configurable"), so they stand where they are used; the one open parameter is LAT.
-/

namespace Sys2Proof

/-- `LAT`, clock cycles from a command's acceptance to its result: OPEN (00_scope.md R6, 70_reset_and_hazards.md R271,
92_eei_decisions.md D18). It has no body, and no definition of the model reads it, as no rule of the spec does. -/
opaque Config.lat : Nat

end Sys2Proof
end

