-- ==== Sys2Proof/Laws/State.lean ====
section
/-!
SUPPORT. What each update of the state does to each field: one lemma per field and update, true by definition, so that
no later proof unfolds an update of the state record.
-/

namespace Sys2Proof.Machine

/-! ### setKV -/

@[simp] theorem setKV_rk0 (s : State) : (setKV s).rk0 = s.rk0 := rfl
@[simp] theorem setKV_rk1 (s : State) : (setKV s).rk1 = s.rk1 := rfl
@[simp] theorem setKV_rk2 (s : State) : (setKV s).rk2 = s.rk2 := rfl
@[simp] theorem setKV_kv (s : State) : (setKV s).kv = true := rfl
@[simp] theorem setKV_y (s : State) : (setKV s).y = s.y := rfl
@[simp] theorem setKV_yv (s : State) : (setKV s).yv = s.yv := rfl
@[simp] theorem setKV_fault (s : State) : (setKV s).fault = s.fault := rfl
@[simp] theorem setKV_fcode (s : State) : (setKV s).fcode = s.fcode := rfl
@[simp] theorem setKV_pending (s : State) : (setKV s).pending = s.pending := rfl

/-! ### setYV -/

@[simp] theorem setYV_rk0 (s : State) : (setYV s).rk0 = s.rk0 := rfl
@[simp] theorem setYV_rk1 (s : State) : (setYV s).rk1 = s.rk1 := rfl
@[simp] theorem setYV_rk2 (s : State) : (setYV s).rk2 = s.rk2 := rfl
@[simp] theorem setYV_kv (s : State) : (setYV s).kv = s.kv := rfl
@[simp] theorem setYV_y (s : State) : (setYV s).y = s.y := rfl
@[simp] theorem setYV_yv (s : State) : (setYV s).yv = true := rfl
@[simp] theorem setYV_fault (s : State) : (setYV s).fault = s.fault := rfl
@[simp] theorem setYV_fcode (s : State) : (setYV s).fcode = s.fcode := rfl
@[simp] theorem setYV_pending (s : State) : (setYV s).pending = s.pending := rfl

/-! ### setFault -/

@[simp] theorem setFault_rk0 (c : Cause) (s : State) : (setFault c s).rk0 = s.rk0 := rfl
@[simp] theorem setFault_rk1 (c : Cause) (s : State) : (setFault c s).rk1 = s.rk1 := rfl
@[simp] theorem setFault_rk2 (c : Cause) (s : State) : (setFault c s).rk2 = s.rk2 := rfl
@[simp] theorem setFault_kv (c : Cause) (s : State) : (setFault c s).kv = s.kv := rfl
@[simp] theorem setFault_y (c : Cause) (s : State) : (setFault c s).y = s.y := rfl
@[simp] theorem setFault_yv (c : Cause) (s : State) : (setFault c s).yv = s.yv := rfl
@[simp] theorem setFault_fault (c : Cause) (s : State) : (setFault c s).fault = true := rfl
@[simp] theorem setFault_fcode (c : Cause) (s : State) : (setFault c s).fcode = c.code := rfl
@[simp] theorem setFault_pending (c : Cause) (s : State) : (setFault c s).pending = s.pending := rfl

/-! ### writeResult -/

@[simp] theorem writeResult_rk0 (r : Word) (s : State) : (writeResult r s).rk0 = s.rk0 := rfl
@[simp] theorem writeResult_rk1 (r : Word) (s : State) : (writeResult r s).rk1 = s.rk1 := rfl
@[simp] theorem writeResult_rk2 (r : Word) (s : State) : (writeResult r s).rk2 = s.rk2 := rfl
@[simp] theorem writeResult_kv (r : Word) (s : State) : (writeResult r s).kv = s.kv := rfl
@[simp] theorem writeResult_y (r : Word) (s : State) : (writeResult r s).y = r := rfl
@[simp] theorem writeResult_yv (r : Word) (s : State) : (writeResult r s).yv = true := rfl
@[simp] theorem writeResult_fault (r : Word) (s : State) : (writeResult r s).fault = s.fault := rfl
@[simp] theorem writeResult_fcode (r : Word) (s : State) : (writeResult r s).fcode = s.fcode := rfl
@[simp] theorem writeResult_pending (r : Word) (s : State) : (writeResult r s).pending = s.pending := rfl

/-! ### writeRoundKeys -/

@[simp] theorem writeRoundKeys_rk0 (k : RoundKeys) (s : State) : (writeRoundKeys k s).rk0 = k.k0 := rfl
@[simp] theorem writeRoundKeys_rk1 (k : RoundKeys) (s : State) : (writeRoundKeys k s).rk1 = k.k1 := rfl
@[simp] theorem writeRoundKeys_rk2 (k : RoundKeys) (s : State) : (writeRoundKeys k s).rk2 = k.k2 := rfl
@[simp] theorem writeRoundKeys_kv (k : RoundKeys) (s : State) : (writeRoundKeys k s).kv = true := rfl
@[simp] theorem writeRoundKeys_y (k : RoundKeys) (s : State) : (writeRoundKeys k s).y = s.y := rfl
@[simp] theorem writeRoundKeys_yv (k : RoundKeys) (s : State) : (writeRoundKeys k s).yv = s.yv := rfl
@[simp] theorem writeRoundKeys_fault (k : RoundKeys) (s : State) : (writeRoundKeys k s).fault = s.fault := rfl
@[simp] theorem writeRoundKeys_fcode (k : RoundKeys) (s : State) : (writeRoundKeys k s).fcode = s.fcode := rfl
@[simp] theorem writeRoundKeys_pending (k : RoundKeys) (s : State) : (writeRoundKeys k s).pending = s.pending := rfl

/-! ### raise -/

@[simp] theorem raise_rk0 (c : Cause) (s : State) : (raise c s).rk0 = s.rk0 := rfl
@[simp] theorem raise_rk1 (c : Cause) (s : State) : (raise c s).rk1 = s.rk1 := rfl
@[simp] theorem raise_rk2 (c : Cause) (s : State) : (raise c s).rk2 = s.rk2 := rfl
@[simp] theorem raise_kv (c : Cause) (s : State) : (raise c s).kv = s.kv := rfl
@[simp] theorem raise_y (c : Cause) (s : State) : (raise c s).y = s.y := rfl
@[simp] theorem raise_yv (c : Cause) (s : State) : (raise c s).yv = s.yv := rfl
@[simp] theorem raise_fault (c : Cause) (s : State) : (raise c s).fault = true := rfl
@[simp] theorem raise_fcode (c : Cause) (s : State) : (raise c s).fcode = c.code := rfl
@[simp] theorem raise_pending (c : Cause) (s : State) : (raise c s).pending = s.pending := rfl

/-! ### resetCore -/

@[simp] theorem resetCore_rk0 (s : State) : (resetCore s).rk0 = 0 := rfl
@[simp] theorem resetCore_rk1 (s : State) : (resetCore s).rk1 = 0 := rfl
@[simp] theorem resetCore_rk2 (s : State) : (resetCore s).rk2 = 0 := rfl
@[simp] theorem resetCore_kv (s : State) : (resetCore s).kv = false := rfl
@[simp] theorem resetCore_y (s : State) : (resetCore s).y = 0 := rfl
@[simp] theorem resetCore_yv (s : State) : (resetCore s).yv = false := rfl
@[simp] theorem resetCore_fault (s : State) : (resetCore s).fault = false := rfl
@[simp] theorem resetCore_fcode (s : State) : (resetCore s).fcode = 0 := rfl
@[simp] theorem resetCore_pending (s : State) : (resetCore s).pending = s.pending := rfl

/-! ### advance -/

@[simp] theorem advance_rk0 (s : State) : (advance s).rk0 = s.rk0 := rfl
@[simp] theorem advance_rk1 (s : State) : (advance s).rk1 = s.rk1 := rfl
@[simp] theorem advance_rk2 (s : State) : (advance s).rk2 = s.rk2 := rfl
@[simp] theorem advance_kv (s : State) : (advance s).kv = s.kv := rfl
@[simp] theorem advance_y (s : State) : (advance s).y = s.y := rfl
@[simp] theorem advance_yv (s : State) : (advance s).yv = s.yv := rfl
@[simp] theorem advance_fault (s : State) : (advance s).fault = s.fault := rfl
@[simp] theorem advance_fcode (s : State) : (advance s).fcode = s.fcode := rfl
@[simp] theorem advance_pending (s : State) : (advance s).pending = s.pending.tail := rfl

/-! ### presentNext -/

@[simp] theorem presentNext_rk0 (s : State) (w : CmdWord) : (presentNext s w).rk0 = s.rk0 := rfl
@[simp] theorem presentNext_rk1 (s : State) (w : CmdWord) : (presentNext s w).rk1 = s.rk1 := rfl
@[simp] theorem presentNext_rk2 (s : State) (w : CmdWord) : (presentNext s w).rk2 = s.rk2 := rfl
@[simp] theorem presentNext_kv (s : State) (w : CmdWord) : (presentNext s w).kv = s.kv := rfl
@[simp] theorem presentNext_y (s : State) (w : CmdWord) : (presentNext s w).y = s.y := rfl
@[simp] theorem presentNext_yv (s : State) (w : CmdWord) : (presentNext s w).yv = s.yv := rfl
@[simp] theorem presentNext_fault (s : State) (w : CmdWord) : (presentNext s w).fault = s.fault := rfl
@[simp] theorem presentNext_fcode (s : State) (w : CmdWord) : (presentNext s w).fcode = s.fcode := rfl
@[simp] theorem presentNext_pending (s : State) (w : CmdWord) : (presentNext s w).pending = pinsOfWord w :: s.pending.tail := rfl

/-! ### The output ports -/

@[simp] theorem ports_writeResult (r : Word) (s : State) :
    (writeResult r s).ports = { s.ports with y := some r, yv := true } := rfl

@[simp] theorem ports_writeRoundKeys (k : RoundKeys) (s : State) :
    (writeRoundKeys k s).ports = { s.ports with rk0 := some k.k0, rk1 := some k.k1, rk2 := some k.k2, kv := true } := rfl

@[simp] theorem ports_raise (c : Cause) (s : State) :
    (raise c s).ports = { s.ports with fault := true, fcode := c.code } := rfl

@[simp] theorem ports_resetCore (s : State) : (resetCore s).ports = State.reset.ports := rfl

@[simp] theorem ports_advance (s : State) : (advance s).ports = s.ports := rfl

/-! ### readRoundKeys -/

@[simp] theorem readRoundKeys_writeResult (r : Word) (s : State) :
    readRoundKeys (writeResult r s) = readRoundKeys s := rfl

@[simp] theorem readRoundKeys_writeRoundKeys (k : RoundKeys) (s : State) :
    readRoundKeys (writeRoundKeys k s) = k := rfl

@[simp] theorem readRoundKeys_raise (c : Cause) (s : State) : readRoundKeys (raise c s) = readRoundKeys s := rfl

@[simp] theorem readRoundKeys_advance (s : State) : readRoundKeys (advance s) = readRoundKeys s := rfl

end Sys2Proof.Machine
end

