-- ==== Sys2Proof/Laws/Ops.lean ====
section
/-!
SUPPORT. One lemma per shared operation that says once everything it can do (Machine/Ops.lean, Machine/HostPort.lean), and
the encoding facts of the fault codes. Cite these; do not unfold the operations.
-/

namespace Sys2Proof.Machine

/-- FCODE names its cause (60_exceptions.md R230). -/
theorem causeOf_code (c : Cause) : causeOf c.code = some c := by cases c <;> rfl

/-- A cause is never coded NONE (10_state.md R28). -/
theorem Cause_code_ne_zero (c : Cause) : c.code ≠ 0 := by cases c <;> decide

/-- Distinct causes have distinct codes. -/
theorem Cause_code_injective {c d : Cause} (h : c.code = d.code) : c = d := by
  have := congrArg causeOf h
  simpa [causeOf_code] using this

/-- A faulted core ignores the command (60_exceptions.md R238). -/
theorem accept_of_faulted {s : State} (h : s.fault = true) (effect : State → State) :
    accept s effect = .next s := by simp [accept, h]

/-- A core that accepts commands executes the command's effect. -/
theorem accept_of_accepting {s : State} (h : s.Accepting) (effect : State → State) :
    accept s effect = .next (effect s) := by simp [accept, h]

/-- Everything `accept` can do. -/
theorem accept_cases (s : State) (effect : State → State) :
    (s.fault = true ∧ accept s effect = .next s) ∨ (s.Accepting ∧ accept s effect = .next (effect s)) := by
  cases h : s.fault
  · exact .inr ⟨h, accept_of_accepting h effect⟩
  · exact .inl ⟨rfl, accept_of_faulted h effect⟩

/-- Everything `withSlot` can do. -/
theorem withSlot_cases (v : Word) (s : State) (k : Fin 4 → State) :
    (slotLegal v = true ∧ withSlot v s k = k (slotOf v)) ∨
      (slotLegal v = false ∧ withSlot v s k = raise .operandRange s) := by
  cases h : slotLegal v <;> simp [withSlot, h]

/-- Everything `withNibble` can do. -/
theorem withNibble_cases (v : Word) (s : State) (k : Nibble → State) :
    (nibbleLegal v = true ∧ withNibble v s k = k (nibbleOf v)) ∨
      (nibbleLegal v = false ∧ withNibble v s k = raise .operandRange s) := by
  cases h : nibbleLegal v <;> simp [withNibble, h]

/-- Everything `withByte` can do. -/
theorem withByte_cases (v : Word) (s : State) (k : Byte → State) :
    (byteLegal v = true ∧ withByte v s k = k (byteOf v)) ∨
      (byteLegal v = false ∧ withByte v s k = raise .operandRange s) := by
  cases h : byteLegal v <;> simp [withByte, h]

/-- Everything `withRoundKeys` can do. -/
theorem withRoundKeys_cases (s : State) (k : RoundKeys → State) :
    (s.kv = true ∧ withRoundKeys s k = k (readRoundKeys s)) ∨
      (s.kv = false ∧ withRoundKeys s k = raise .noKey s) := by
  cases h : s.kv <;> simp [withRoundKeys, h]

/-- When a slot field is legal (30_encoding.md R72). -/
theorem slotLegal_of_le {v : Word} (h : v ≤ 0x3) : slotLegal v = true := decide_eq_true h

/-- When a slot field is out of range (30_encoding.md R76). -/
theorem slotLegal_of_lt {v : Word} (h : 0x3 < v) : slotLegal v = false :=
  decide_eq_false (BitVec.not_le.2 h)

/-- A legal slot field is the number it stands for. -/
theorem slotOf_toNat {v : Word} (h : slotLegal v = true) : (slotOf v).val = v.toNat := by
  have h : v ≤ 0x3 := of_decide_eq_true h
  have h : v.toNat ≤ 3 := h
  simp only [slotOf, BitVec.toFin_extractLsb']
  simp
  omega

/-- When a nibble field is legal (30_encoding.md R72). -/
theorem nibbleLegal_of_le {v : Word} (h : v ≤ 0xF) : nibbleLegal v = true := decide_eq_true h

/-- When a nibble field is out of range (30_encoding.md R76). -/
theorem nibbleLegal_of_lt {v : Word} (h : 0xF < v) : nibbleLegal v = false :=
  decide_eq_false (BitVec.not_le.2 h)

/-- A legal nibble field is the number it stands for. -/
theorem nibbleOf_toNat {v : Word} (h : nibbleLegal v = true) : (nibbleOf v).toNat = v.toNat := by
  have h : v ≤ 0xF := of_decide_eq_true h
  have h : v.toNat ≤ 15 := h
  simp [nibbleOf]
  omega

/-- When a byte field is legal (30_encoding.md R72). -/
theorem byteLegal_of_le {v : Word} (h : v ≤ 0xFF) : byteLegal v = true := decide_eq_true h

/-- When a byte field is out of range (30_encoding.md R76). -/
theorem byteLegal_of_lt {v : Word} (h : 0xFF < v) : byteLegal v = false :=
  decide_eq_false (BitVec.not_le.2 h)

/-- A legal byte field is the number it stands for. -/
theorem byteOf_toNat {v : Word} (h : byteLegal v = true) : (byteOf v).toNat = v.toNat := by
  have h : v ≤ 0xFF := of_decide_eq_true h
  have h : v.toNat ≤ 255 := h
  simp [byteOf]
  omega

/-- Reset is idempotent (70_reset_and_hazards.md R261). -/
theorem resetCore_resetCore (s : State) : resetCore (resetCore s) = resetCore s := rfl

/-- With no input pending the step's input is Idle. -/
theorem sample_of_nil {s : State} (h : s.pending = []) : sample s = .idle := by simp [sample, h]

/-- The step's input is read from the oldest pending pins. -/
theorem sample_of_cons {s : State} {p : Pins} {rest : List Pins} (h : s.pending = p :: rest) :
    sample s = p.input := by simp [sample, h]

/-- With no input pending nothing is consumed. -/
theorem advance_of_nil {s : State} (h : s.pending = []) : advance s = s := by
  cases s; simp_all [advance]

end Sys2Proof.Machine
end

