-- ==== Sys2Proof/Laws/Encoding.lean ====
section
/-!
SUPPORT. The fields of a command word, and the decoder seen from its pieces.
-/

namespace Sys2Proof

@[simp] theorem opField_cmdWord (op : Opcode) (a b : Word) : opField (cmdWord op a b) = op := by
  apply BitVec.eq_of_getLsbD_eq; intro i hi
  simp only [opField, cmdWord, BitVec.getLsbD_extractLsb', BitVec.getLsbD_append]
  simp [hi, show ¬ (32 + i < 16) by omega, show ¬ (32 + i - 16 < 16) by omega, show 32 + i - 16 - 16 = i by omega]

@[simp] theorem aField_cmdWord (op : Opcode) (a b : Word) : aField (cmdWord op a b) = a := by
  apply BitVec.eq_of_getLsbD_eq; intro i hi
  simp only [aField, cmdWord, BitVec.getLsbD_extractLsb', BitVec.getLsbD_append]
  simp only [show ¬ (16 + i < 16) by omega, show 16 + i - 16 = i by omega, hi, if_true, if_false, decide_true,
    Bool.true_and]

@[simp] theorem bField_cmdWord (op : Opcode) (a b : Word) : bField (cmdWord op a b) = b := by
  apply BitVec.eq_of_getLsbD_eq; intro i hi
  simp only [bField, cmdWord, BitVec.getLsbD_extractLsb', BitVec.getLsbD_append]
  simp [hi]

/-- A command word is its three fields and nothing else (30_encoding.md R70, R71). -/
theorem cmdWord_fields (w : CmdWord) : cmdWord (opField w) (aField w) (bField w) = w := by
  apply BitVec.eq_of_getLsbD_eq; intro i hi
  simp only [opField, aField, bField, cmdWord, BitVec.getLsbD_extractLsb', BitVec.getLsbD_append]
  split
  · simp_all
  · split
    · simp_all [show 16 + (i - 16) = i by omega]
    · simp_all [show 32 + (i - 16 - 16) = i by omega]; intro _; omega

/-- Pins made of a word present that word. -/
@[simp] theorem Machine.pinsOfWord_word (w : CmdWord) : (Machine.pinsOfWord w).word = w := cmdWord_fields w

/-- Pins made of a word make a command input. -/
@[simp] theorem Machine.pinsOfWord_input (w : CmdWord) : (Machine.pinsOfWord w).input = .cmd w := by
  simp [Machine.Pins.input, show (Machine.pinsOfWord w).rst = false from rfl,
    show (Machine.pinsOfWord w).cmdValid = true from rfl]

@[simp] theorem Machine.idlePins_input : Machine.idlePins.input = .idle := rfl

@[simp] theorem Machine.resetPins_input : Machine.resetPins.input = .reset := rfl

/-- The opcode map read both ways (30_encoding.md R74). -/
@[simp] theorem mnemonicOf_opcode (m : Mnemonic) : mnemonicOf m.opcode = some m := by cases m <;> rfl

/-- An opcode that names a mnemonic is that mnemonic's opcode. -/
theorem opcode_of_mnemonicOf {op : Opcode} {m : Mnemonic} (h : mnemonicOf op = some m) : m.opcode = op := by
  revert h; revert m; revert op; decide

/-- The opcodes that name no mnemonic are the 13 reserved ones (30_encoding.md R78). -/
theorem mnemonicOf_eq_none (op : Opcode) : mnemonicOf op = none ↔ op ∈ reservedOpcodes := by
  revert op; decide

/-- Decoding a word whose opcode is a mnemonic's. -/
theorem decode_cmdWord (m : Mnemonic) (a b : Word) : decode (cmdWord m.opcode a b) = .ok (m.instr a b) := by
  simp [decode]

/-- A word decodes exactly when its opcode is not reserved. -/
theorem decode_cases (w : CmdWord) :
    (∃ m, mnemonicOf (opField w) = some m ∧ decode w = .ok (m.instr (aField w) (bField w))) ∨
      (opField w ∈ reservedOpcodes ∧ decode w = .error (.reservedOpcode (opField w))) := by
  cases h : mnemonicOf (opField w) with
  | some m => exact .inl ⟨m, rfl, by simp [decode, h]⟩
  | none => exact .inr ⟨(mnemonicOf_eq_none _).1 h, by simp [decode, h]⟩

@[simp] theorem instr_mnemonic (m : Mnemonic) (a b : Word) : (m.instr a b).mnemonic = m := by cases m <;> rfl

@[simp] theorem instr_operandA (m : Mnemonic) (a b : Word) : (m.instr a b).operandA = a := by cases m <;> rfl

/-- The operand `b` of a command made of two fields: the field where the format uses it, else 0. -/
theorem instr_operandB (m : Mnemonic) (a b : Word) :
    (m.instr a b).operandB = if formatUsesB m.format then b else 0 := by cases m <;> rfl

/-- A command is its mnemonic and its operands. -/
theorem instr_eta (i : Instr) : i.mnemonic.instr i.operandA i.operandB = i := by cases i <;> rfl

end Sys2Proof
end

