-- ==== Sys2Proof/Laws/Exec.lean ====
section
/-!
SUPPORT. The equation of each command: `exec` on it is its acceptance and its effect, in the shared operations. A proof
about a command rewrites by its equation once and then uses the lemmas of Laws/Ops.lean.
-/

namespace Sys2Proof.Machine

theorem exec_nib (a b : Word) (s : State) :
    exec (.nib a b) s = accept s fun s => withSlot b s fun i => writeResult (zext16 (nibble a i)) s := rfl

theorem exec_lob (a : Word) (s : State) :
    exec (.lob a) s = accept s fun s => writeResult (zext16 (lowByte a)) s := rfl

theorem exec_hib (a : Word) (s : State) :
    exec (.hib a) s = accept s fun s => writeResult (zext16 (highByte a)) s := rfl

theorem exec_hi2 (a : Word) (s : State) :
    exec (.hi2 a) s = accept s fun s => withNibble a s fun n => writeResult (zext16 (nibbleRow n)) s := rfl

theorem exec_lo2 (a : Word) (s : State) :
    exec (.lo2 a) s = accept s fun s => withNibble a s fun n => writeResult (zext16 (nibbleCol n)) s := rfl

theorem exec_sbox (a : Word) (s : State) :
    exec (.sbox a) s = accept s fun s => withNibble a s fun n => writeResult (zext16 (substitute n false)) s := rfl

theorem exec_isbox (a : Word) (s : State) :
    exec (.isbox a) s = accept s fun s => withNibble a s fun n => writeResult (zext16 (substitute n true)) s := rfl

theorem exec_subnib (a : Word) (s : State) :
    exec (.subnib a) s = accept s fun s => writeResult (subNibbles a false) s := rfl

theorem exec_isubnib (a : Word) (s : State) :
    exec (.isubnib a) s = accept s fun s => writeResult (subNibbles a true) s := rfl

theorem exec_gfmul (a b : Word) (s : State) :
    exec (.gfmul a b) s = accept s fun s => withNibble a s fun x => withNibble b s fun y => writeResult (zext16 (romRead (.gfmul (x ++ y)))) s := rfl

theorem exec_ark (a b : Word) (s : State) :
    exec (.ark a b) s = accept s fun s => writeResult (addRoundKey a b) s := rfl

theorem exec_shrow (a : Word) (s : State) :
    exec (.shrow a) s = accept s fun s => writeResult (shiftRow a) s := rfl

theorem exec_mixcol (a : Word) (s : State) :
    exec (.mixcol a) s = accept s fun s => writeResult (mixColumns a) s := rfl

theorem exec_imixcol (a : Word) (s : State) :
    exec (.imixcol a) s = accept s fun s => writeResult (invMixColumns a) s := rfl

theorem exec_rotnib (a : Word) (s : State) :
    exec (.rotnib a) s = accept s fun s => withByte a s fun b => writeResult (zext16 (rotNib b)) s := rfl

theorem exec_expand (a : Word) (s : State) :
    exec (.expand a) s = accept s fun s => writeRoundKeys (expandKey a) s := rfl

theorem exec_gfunc (a : Word) (s : State) :
    exec (.gfunc a) s = accept s fun s => withByte a s fun b => writeResult (zext16 (g b)) s := rfl

theorem exec_enc (a : Word) (s : State) :
    exec (.enc a) s = accept s fun s => withRoundKeys s fun k => writeResult (encrypt a k) s := rfl

theorem exec_dec (a : Word) (s : State) :
    exec (.dec a) s = accept s fun s => withRoundKeys s fun k => writeResult (decrypt a k) s := rfl

end Sys2Proof.Machine
end

