-- ==== Sys2Proof/Laws/PerInstr.lean ====
section
/-!
SUPPORT. Statements about every command as syntax, one lemma per constructor.
-/

/-- The word of a command holds its opcode and its operands in the fields of 30_encoding.md R71. -/
def Sys2Proof.Laws.EncodedFields.Statement (i : Sys2Proof.Instr) : Prop :=
  Sys2Proof.opField (Sys2Proof.encode i) = i.mnemonic.opcode ∧
    Sys2Proof.aField (Sys2Proof.encode i) = i.operandA ∧ Sys2Proof.bField (Sys2Proof.encode i) = i.operandB

/-- A command is well formed iff its operands are legal in its format: the list of 30_encoding.md R76 and the table of
R72 say the same. -/
def Sys2Proof.Laws.RangeByFormat.Statement (i : Sys2Proof.Instr) : Prop :=
  i.wellFormed = Sys2Proof.Machine.formatLegal i.mnemonic.format i.operandA i.operandB

theorem Sys2Proof.Laws.EncodedFields.nib (a b : Sys2Proof.Word) :
    Sys2Proof.Laws.EncodedFields.Statement (.nib a b) := by
  simp [Sys2Proof.Laws.EncodedFields.Statement, Sys2Proof.encode]

theorem Sys2Proof.Laws.EncodedFields.lob (a : Sys2Proof.Word) :
    Sys2Proof.Laws.EncodedFields.Statement (.lob a) := by
  simp [Sys2Proof.Laws.EncodedFields.Statement, Sys2Proof.encode]

theorem Sys2Proof.Laws.EncodedFields.hib (a : Sys2Proof.Word) :
    Sys2Proof.Laws.EncodedFields.Statement (.hib a) := by
  simp [Sys2Proof.Laws.EncodedFields.Statement, Sys2Proof.encode]

theorem Sys2Proof.Laws.EncodedFields.hi2 (a : Sys2Proof.Word) :
    Sys2Proof.Laws.EncodedFields.Statement (.hi2 a) := by
  simp [Sys2Proof.Laws.EncodedFields.Statement, Sys2Proof.encode]

theorem Sys2Proof.Laws.EncodedFields.lo2 (a : Sys2Proof.Word) :
    Sys2Proof.Laws.EncodedFields.Statement (.lo2 a) := by
  simp [Sys2Proof.Laws.EncodedFields.Statement, Sys2Proof.encode]

theorem Sys2Proof.Laws.EncodedFields.sbox (a : Sys2Proof.Word) :
    Sys2Proof.Laws.EncodedFields.Statement (.sbox a) := by
  simp [Sys2Proof.Laws.EncodedFields.Statement, Sys2Proof.encode]

theorem Sys2Proof.Laws.EncodedFields.isbox (a : Sys2Proof.Word) :
    Sys2Proof.Laws.EncodedFields.Statement (.isbox a) := by
  simp [Sys2Proof.Laws.EncodedFields.Statement, Sys2Proof.encode]

theorem Sys2Proof.Laws.EncodedFields.subnib (a : Sys2Proof.Word) :
    Sys2Proof.Laws.EncodedFields.Statement (.subnib a) := by
  simp [Sys2Proof.Laws.EncodedFields.Statement, Sys2Proof.encode]

theorem Sys2Proof.Laws.EncodedFields.isubnib (a : Sys2Proof.Word) :
    Sys2Proof.Laws.EncodedFields.Statement (.isubnib a) := by
  simp [Sys2Proof.Laws.EncodedFields.Statement, Sys2Proof.encode]

theorem Sys2Proof.Laws.EncodedFields.gfmul (a b : Sys2Proof.Word) :
    Sys2Proof.Laws.EncodedFields.Statement (.gfmul a b) := by
  simp [Sys2Proof.Laws.EncodedFields.Statement, Sys2Proof.encode]

theorem Sys2Proof.Laws.EncodedFields.ark (a b : Sys2Proof.Word) :
    Sys2Proof.Laws.EncodedFields.Statement (.ark a b) := by
  simp [Sys2Proof.Laws.EncodedFields.Statement, Sys2Proof.encode]

theorem Sys2Proof.Laws.EncodedFields.shrow (a : Sys2Proof.Word) :
    Sys2Proof.Laws.EncodedFields.Statement (.shrow a) := by
  simp [Sys2Proof.Laws.EncodedFields.Statement, Sys2Proof.encode]

theorem Sys2Proof.Laws.EncodedFields.mixcol (a : Sys2Proof.Word) :
    Sys2Proof.Laws.EncodedFields.Statement (.mixcol a) := by
  simp [Sys2Proof.Laws.EncodedFields.Statement, Sys2Proof.encode]

theorem Sys2Proof.Laws.EncodedFields.imixcol (a : Sys2Proof.Word) :
    Sys2Proof.Laws.EncodedFields.Statement (.imixcol a) := by
  simp [Sys2Proof.Laws.EncodedFields.Statement, Sys2Proof.encode]

theorem Sys2Proof.Laws.EncodedFields.rotnib (a : Sys2Proof.Word) :
    Sys2Proof.Laws.EncodedFields.Statement (.rotnib a) := by
  simp [Sys2Proof.Laws.EncodedFields.Statement, Sys2Proof.encode]

theorem Sys2Proof.Laws.EncodedFields.expand (a : Sys2Proof.Word) :
    Sys2Proof.Laws.EncodedFields.Statement (.expand a) := by
  simp [Sys2Proof.Laws.EncodedFields.Statement, Sys2Proof.encode]

theorem Sys2Proof.Laws.EncodedFields.gfunc (a : Sys2Proof.Word) :
    Sys2Proof.Laws.EncodedFields.Statement (.gfunc a) := by
  simp [Sys2Proof.Laws.EncodedFields.Statement, Sys2Proof.encode]

theorem Sys2Proof.Laws.EncodedFields.enc (a : Sys2Proof.Word) :
    Sys2Proof.Laws.EncodedFields.Statement (.enc a) := by
  simp [Sys2Proof.Laws.EncodedFields.Statement, Sys2Proof.encode]

theorem Sys2Proof.Laws.EncodedFields.dec (a : Sys2Proof.Word) :
    Sys2Proof.Laws.EncodedFields.Statement (.dec a) := by
  simp [Sys2Proof.Laws.EncodedFields.Statement, Sys2Proof.encode]

theorem Sys2Proof.Laws.RangeByFormat.nib (a b : Sys2Proof.Word) :
    Sys2Proof.Laws.RangeByFormat.Statement (.nib a b) := rfl

theorem Sys2Proof.Laws.RangeByFormat.lob (a : Sys2Proof.Word) :
    Sys2Proof.Laws.RangeByFormat.Statement (.lob a) := rfl

theorem Sys2Proof.Laws.RangeByFormat.hib (a : Sys2Proof.Word) :
    Sys2Proof.Laws.RangeByFormat.Statement (.hib a) := rfl

theorem Sys2Proof.Laws.RangeByFormat.hi2 (a : Sys2Proof.Word) :
    Sys2Proof.Laws.RangeByFormat.Statement (.hi2 a) := rfl

theorem Sys2Proof.Laws.RangeByFormat.lo2 (a : Sys2Proof.Word) :
    Sys2Proof.Laws.RangeByFormat.Statement (.lo2 a) := rfl

theorem Sys2Proof.Laws.RangeByFormat.sbox (a : Sys2Proof.Word) :
    Sys2Proof.Laws.RangeByFormat.Statement (.sbox a) := rfl

theorem Sys2Proof.Laws.RangeByFormat.isbox (a : Sys2Proof.Word) :
    Sys2Proof.Laws.RangeByFormat.Statement (.isbox a) := rfl

theorem Sys2Proof.Laws.RangeByFormat.subnib (a : Sys2Proof.Word) :
    Sys2Proof.Laws.RangeByFormat.Statement (.subnib a) := rfl

theorem Sys2Proof.Laws.RangeByFormat.isubnib (a : Sys2Proof.Word) :
    Sys2Proof.Laws.RangeByFormat.Statement (.isubnib a) := rfl

theorem Sys2Proof.Laws.RangeByFormat.gfmul (a b : Sys2Proof.Word) :
    Sys2Proof.Laws.RangeByFormat.Statement (.gfmul a b) := rfl

theorem Sys2Proof.Laws.RangeByFormat.ark (a b : Sys2Proof.Word) :
    Sys2Proof.Laws.RangeByFormat.Statement (.ark a b) := rfl

theorem Sys2Proof.Laws.RangeByFormat.shrow (a : Sys2Proof.Word) :
    Sys2Proof.Laws.RangeByFormat.Statement (.shrow a) := rfl

theorem Sys2Proof.Laws.RangeByFormat.mixcol (a : Sys2Proof.Word) :
    Sys2Proof.Laws.RangeByFormat.Statement (.mixcol a) := rfl

theorem Sys2Proof.Laws.RangeByFormat.imixcol (a : Sys2Proof.Word) :
    Sys2Proof.Laws.RangeByFormat.Statement (.imixcol a) := rfl

theorem Sys2Proof.Laws.RangeByFormat.rotnib (a : Sys2Proof.Word) :
    Sys2Proof.Laws.RangeByFormat.Statement (.rotnib a) := rfl

theorem Sys2Proof.Laws.RangeByFormat.expand (a : Sys2Proof.Word) :
    Sys2Proof.Laws.RangeByFormat.Statement (.expand a) := rfl

theorem Sys2Proof.Laws.RangeByFormat.gfunc (a : Sys2Proof.Word) :
    Sys2Proof.Laws.RangeByFormat.Statement (.gfunc a) := rfl

theorem Sys2Proof.Laws.RangeByFormat.enc (a : Sys2Proof.Word) :
    Sys2Proof.Laws.RangeByFormat.Statement (.enc a) := rfl

theorem Sys2Proof.Laws.RangeByFormat.dec (a : Sys2Proof.Word) :
    Sys2Proof.Laws.RangeByFormat.Statement (.dec a) := rfl
end

