-- ==== Sys2Proof/Laws/Step.lean ====
section
/-!
SUPPORT. What one command, one input and one step can do, each said once: `exec_cases`, `present_cases`, `step_cases`.
An invariant or a frame is a short case analysis over one of them.
-/

namespace Sys2Proof.Machine

/-- The five things the execution of a command can do: be ignored by a faulted core, write a result, write the round
keys, or take one of the two faults a decoded command has. -/
inductive ExecCase (i : Instr) (s : State) : State → Prop where
  /-- Ignored (60_exceptions.md R238). -/
  | ignored (hf : s.fault = true) : ExecCase i s s
  /-- A result is written (10_state.md R24): every command but `EXPAND`. -/
  | result (hf : s.fault = false) (hm : i.mnemonic ≠ .expand) (hw : i.wellFormed = true) (r : Word) :
      ExecCase i s (writeResult r s)
  /-- The round keys are written (45_key_schedule.md R196): `EXPAND` alone. -/
  | keys (hf : s.fault = false) (key : Word) (hi : i = .expand key) : ExecCase i s (writeRoundKeys (expandKey key) s)
  /-- Fault(OPERAND_RANGE) (60_exceptions.md R232): an ill-formed command. -/
  | operandRange (hf : s.fault = false) (hw : i.wellFormed = false) : ExecCase i s (raise .operandRange s)
  /-- Fault(NO_KEY) (60_exceptions.md R233): `ENC` or `DEC` without keys. -/
  | noKey (hf : s.fault = false) (hm : i.mnemonic = .enc ∨ i.mnemonic = .dec) (hk : s.kv = false) :
      ExecCase i s (raise .noKey s)

/-- A command of a full word that writes a result. -/
theorem exec_word_case {i : Instr} (hm : i.mnemonic ≠ .expand) (hw : i.wellFormed = true) (r : Word) (s : State) :
    ∃ t, accept s (fun s => writeResult r s) = .next t ∧ ExecCase i s t := by
  rcases accept_cases s (fun s => writeResult r s) with ⟨hf, h⟩ | ⟨hf, h⟩
  · exact ⟨_, h, .ignored hf⟩
  · exact ⟨_, h, .result hf hm hw r⟩

/-- A command of a nibble that writes a result. -/
theorem exec_nibble_case {i : Instr} (hm : i.mnemonic ≠ .expand) (a : Word) (hw : i.wellFormed = nibbleLegal a)
    (r : Nibble → Word) (s : State) :
    ∃ t, accept s (fun s => withNibble a s fun n => writeResult (r n) s) = .next t ∧ ExecCase i s t := by
  rcases accept_cases s (fun s => withNibble a s fun n => writeResult (r n) s) with ⟨hf, h⟩ | ⟨hf, h⟩
  · exact ⟨_, h, .ignored hf⟩
  · rcases withNibble_cases a s (fun n => writeResult (r n) s) with ⟨hl, h'⟩ | ⟨hl, h'⟩
    · exact ⟨_, h, h' ▸ .result hf hm (hw.trans hl) _⟩
    · exact ⟨_, h, h' ▸ .operandRange hf (hw.trans hl)⟩

/-- A command of a byte that writes a result. -/
theorem exec_byte_case {i : Instr} (hm : i.mnemonic ≠ .expand) (a : Word) (hw : i.wellFormed = byteLegal a)
    (r : Byte → Word) (s : State) :
    ∃ t, accept s (fun s => withByte a s fun b => writeResult (r b) s) = .next t ∧ ExecCase i s t := by
  rcases accept_cases s (fun s => withByte a s fun b => writeResult (r b) s) with ⟨hf, h⟩ | ⟨hf, h⟩
  · exact ⟨_, h, .ignored hf⟩
  · rcases withByte_cases a s (fun b => writeResult (r b) s) with ⟨hl, h'⟩ | ⟨hl, h'⟩
    · exact ⟨_, h, h' ▸ .result hf hm (hw.trans hl) _⟩
    · exact ⟨_, h, h' ▸ .operandRange hf (hw.trans hl)⟩

/-- A command that uses the stored round keys. -/
theorem exec_keyed_case {i : Instr} (hm : i.mnemonic = .enc ∨ i.mnemonic = .dec) (hw : i.wellFormed = true)
    (r : RoundKeys → Word) (s : State) :
    ∃ t, accept s (fun s => withRoundKeys s fun k => writeResult (r k) s) = .next t ∧ ExecCase i s t := by
  have hm' : i.mnemonic ≠ .expand := by rcases hm with h | h <;> simp [h]
  rcases accept_cases s (fun s => withRoundKeys s fun k => writeResult (r k) s) with ⟨hf, h⟩ | ⟨hf, h⟩
  · exact ⟨_, h, .ignored hf⟩
  · rcases withRoundKeys_cases s (fun k => writeResult (r k) s) with ⟨_, h'⟩ | ⟨hk, h'⟩
    · exact ⟨_, h, h' ▸ .result hf hm' hw _⟩
    · exact ⟨_, h, h' ▸ .noKey hf hm hk⟩

/-- `exec` answers a next state, and it is one of the five. -/
theorem exec_cases (i : Instr) (s : State) : ∃ t, exec i s = .next t ∧ ExecCase i s t := by
  cases i with
  | nib a b =>
    rcases accept_cases s (fun s => withSlot b s fun i => writeResult (zext16 (nibble a i)) s) with ⟨hf, h⟩ | ⟨hf, h⟩
    · exact ⟨_, h, .ignored hf⟩
    · rcases withSlot_cases b s (fun i => writeResult (zext16 (nibble a i)) s) with ⟨hl, h'⟩ | ⟨hl, h'⟩
      · exact ⟨_, h, h' ▸ .result (i := .nib a b) hf (by simp [Instr.mnemonic]) hl _⟩
      · exact ⟨_, h, h' ▸ .operandRange (i := .nib a b) hf hl⟩
  | gfmul a b =>
    let inner := fun (s : State) (x : Nibble) => withNibble b s fun y => writeResult (zext16 (romRead (.gfmul (x ++ y)))) s
    have hin : ∀ x, ExecCase (.gfmul a b) s (inner s x) ∨ nibbleLegal a = false ∨ s.fault = true := by
      intro x
      cases ha : nibbleLegal a
      · exact .inr (.inl rfl)
      cases hf : s.fault
      · refine .inl ?_
        show ExecCase _ s (withNibble b s fun y => writeResult (zext16 (romRead (.gfmul (x ++ y)))) s)
        rcases withNibble_cases b s (fun y => writeResult (zext16 (romRead (.gfmul (x ++ y)))) s) with ⟨hb, h⟩ | ⟨hb, h⟩
        · exact h ▸ .result hf (by simp [Instr.mnemonic]) (by simp [Instr.wellFormed, ha, hb]) _
        · exact h ▸ .operandRange hf (by simp [Instr.wellFormed, hb])
      · exact .inr (.inr rfl)
    rcases accept_cases s (fun s => withNibble a s (inner s)) with ⟨hf, h⟩ | ⟨hf, h⟩
    · exact ⟨_, h, .ignored hf⟩
    · rcases withNibble_cases a s (inner s) with ⟨ha, h'⟩ | ⟨ha, h'⟩
      · exact ⟨_, h, h' ▸ (hin (nibbleOf a)).resolve_right (by simp [ha, show s.fault = false from hf])⟩
      · exact ⟨_, h, h' ▸ .operandRange hf (by simp [Instr.wellFormed, ha])⟩
  | expand a =>
    rcases accept_cases s (fun s => writeRoundKeys (expandKey a) s) with ⟨hf, h⟩ | ⟨hf, h⟩
    · exact ⟨_, h, .ignored hf⟩
    · exact ⟨_, h, .keys hf a rfl⟩
  | lob a => exact exec_word_case (by simp [Instr.mnemonic]) rfl _ s
  | hib a => exact exec_word_case (by simp [Instr.mnemonic]) rfl _ s
  | subnib a => exact exec_word_case (by simp [Instr.mnemonic]) rfl _ s
  | isubnib a => exact exec_word_case (by simp [Instr.mnemonic]) rfl _ s
  | ark a b => exact exec_word_case (by simp [Instr.mnemonic]) rfl _ s
  | shrow a => exact exec_word_case (by simp [Instr.mnemonic]) rfl _ s
  | mixcol a => exact exec_word_case (by simp [Instr.mnemonic]) rfl _ s
  | imixcol a => exact exec_word_case (by simp [Instr.mnemonic]) rfl _ s
  | hi2 a => exact exec_nibble_case (by simp [Instr.mnemonic]) a rfl (fun n => zext16 (nibbleRow n)) s
  | lo2 a => exact exec_nibble_case (by simp [Instr.mnemonic]) a rfl (fun n => zext16 (nibbleCol n)) s
  | sbox a => exact exec_nibble_case (by simp [Instr.mnemonic]) a rfl (fun n => zext16 (substitute n false)) s
  | isbox a => exact exec_nibble_case (by simp [Instr.mnemonic]) a rfl (fun n => zext16 (substitute n true)) s
  | rotnib a => exact exec_byte_case (by simp [Instr.mnemonic]) a rfl (fun b => zext16 (rotNib b)) s
  | gfunc a => exact exec_byte_case (by simp [Instr.mnemonic]) a rfl (fun b => zext16 (g b)) s
  | enc a => exact exec_keyed_case (.inl rfl) rfl (fun k => encrypt a k) s
  | dec a => exact exec_keyed_case (.inr rfl) rfl (fun k => decrypt a k) s

/-- The four things an input can do. -/
inductive PresentCase (s : State) : Input → State → Prop where
  | reset : PresentCase s .reset (resetCore s)
  | idle : PresentCase s .idle s
  | exec (w : CmdWord) (i : Instr) (t : State) (hd : decode w = .ok i) (ht : ExecCase i s t) : PresentCase s (.cmd w) t
  | ignored (w : CmdWord) (hf : s.fault = true) : PresentCase s (.cmd w) s
  | illegalOp (w : CmdWord) (hr : opField w ∈ reservedOpcodes) (hf : s.fault = false) :
      PresentCase s (.cmd w) (raise .illegalOp s)

/-- `present` answers a next state, and it is one of the four. -/
theorem present_cases (input : Input) (s : State) : ∃ t, present input s = .next t ∧ PresentCase s input t := by
  cases input with
  | reset => exact ⟨_, rfl, .reset⟩
  | idle => exact ⟨_, rfl, .idle⟩
  | cmd w =>
    rcases decode_cases w with ⟨m, _, hd⟩ | ⟨hr, hd⟩
    · obtain ⟨t, h, hc⟩ := exec_cases (m.instr (aField w) (bField w)) s
      exact ⟨t, by simp [present, hd, h], .exec w _ t hd hc⟩
    · rcases accept_cases s (raise .illegalOp) with ⟨hf, h⟩ | ⟨hf, h⟩
      · exact ⟨_, by simp [present, hd, h], .ignored w hf⟩
      · exact ⟨_, by simp [present, hd, h], .illegalOp w hr hf⟩

/-- What an answered command has done: `exec_cases` read from its answer. -/
theorem exec_case_of_next {i : Instr} {s t : State} (h : exec i s = .next t) : ExecCase i s t := by
  obtain ⟨u, hu, hc⟩ := exec_cases i s
  have : u = t := by simpa [hu] using h
  exact this ▸ hc

/-- What an answered input has done: `present_cases` read from its answer. -/
theorem present_case_of_next {input : Input} {s t : State} (h : present input s = .next t) : PresentCase s input t := by
  obtain ⟨u, hu, hc⟩ := present_cases input s
  have : u = t := by simpa [hu] using h
  exact this ▸ hc

/-- A step answers a next state: what its input does to the state with the pins consumed. -/
theorem step_cases {s t : State} (h : step s = .next t) : PresentCase (advance s) (sample s) t :=
  present_case_of_next h

/-- The step on a presented word is the word's execution. -/
theorem step_presentNext (s : State) (w : CmdWord) :
    step (presentNext s w) = present (.cmd w) { s with pending := s.pending.tail } := by
  simp [step, sample, presentNext, advance]

end Sys2Proof.Machine
end

