-- ==== Sys2Proof/Tests/Slice0.lean ====
section
/-!
SUPPORT. Tests. Expected values come from spec/: the vectors of 95_test_vectors.md (cited as V and the section, X and the
row, or P and the program), and words written out from 30_encoding.md R71 and R74. Each `test_<command>` is also the
witness of that command's statement: it shows a state and operands that meet the statement's hypotheses, with a value on
each side of every range. The `test_witness_…` theorems are the witnesses of the other statements with hypotheses.
-/

namespace Sys2Proof.Tests

open Sys2Proof.Machine

/-- A core that accepts commands, with the round keys of 0x4AF5 and a result in Y (X15). -/
def keyed : State :=
  { State.reset with rk0 := 0x4AF5, rk1 := 0xDD28, rk2 := 0x87AF, kv := true, y := 0x1234, yv := true }

/-- A core that accepts commands, with a result in Y and no keys. -/
def unkeyed : State := { State.reset with y := 0x1234, yv := true }

/-- A core that has taken OPERAND_RANGE. -/
def faulted : State := { keyed with fault := true, fcode := 2 }

/-- The next state of an answer. -/
def nextOf : Answer → Option State
  | .next s => some s
  | .fault _ => none
  | .refused _ => none

/-- Y and YV of the next state, if it took no fault. -/
def resultOf (r : Answer) : Option (Word × Bool) :=
  match nextOf r with
  | some s => if s.fault then none else some (s.y, s.yv)
  | none => none

/-- FCODE, Y and YV of the next state, if it took a fault. -/
def faultOf (r : Answer) : Option (BitVec 2 × Word × Bool) :=
  match nextOf r with
  | some s => if s.fault then some (s.fcode, s.y, s.yv) else none
  | none => none

/-! ### WellFormed: an ill-formed term for each check (30_encoding.md R76) -/

theorem test_wellFormed_nib : (Instr.nib 0xABCD 3).wellFormed = true ∧ (Instr.nib 0xABCD 4).wellFormed = false := by decide
theorem test_wellFormed_hi2 : (Instr.hi2 0xF).wellFormed = true ∧ (Instr.hi2 0x10).wellFormed = false := by decide
theorem test_wellFormed_lo2 : (Instr.lo2 0xF).wellFormed = true ∧ (Instr.lo2 0x8000).wellFormed = false := by decide
theorem test_wellFormed_sbox : (Instr.sbox 0xF).wellFormed = true ∧ (Instr.sbox 0x10).wellFormed = false := by decide
theorem test_wellFormed_isbox : (Instr.isbox 0xF).wellFormed = true ∧ (Instr.isbox 0xFFFF).wellFormed = false := by decide
theorem test_wellFormed_gfmul : (Instr.gfmul 0xF 0xF).wellFormed = true ∧ (Instr.gfmul 0x10 0x3).wellFormed = false ∧
    (Instr.gfmul 0x3 0x10).wellFormed = false := by decide
theorem test_wellFormed_rotnib : (Instr.rotnib 0xFF).wellFormed = true ∧ (Instr.rotnib 0x100).wellFormed = false := by decide
theorem test_wellFormed_gfunc : (Instr.gfunc 0xFF).wellFormed = true ∧ (Instr.gfunc 0x100).wellFormed = false := by decide

/-! ### Decoding: one word per command, op then a then b (R71, R74; V 2.1 to 2.6) -/

theorem test_decode_nib : decode 0x0112340002 = .ok (.nib 0x1234 0x0002) := by rfl
theorem test_decode_lob : decode 0x024AF50000 = .ok (.lob 0x4AF5) := by rfl
theorem test_decode_hib : decode 0x034AF50000 = .ok (.hib 0x4AF5) := by rfl
theorem test_decode_hi2 : decode 0x0400060000 = .ok (.hi2 0x0006) := by rfl
theorem test_decode_lo2 : decode 0x0580000000 = .ok (.lo2 0x8000) := by rfl
theorem test_decode_sbox : decode 0x0800060000 = .ok (.sbox 0x0006) := by rfl
theorem test_decode_isbox : decode 0x0900080000 = .ok (.isbox 0x0008) := by rfl
theorem test_decode_subnib : decode 0x0AFFFFFFFF = .ok (.subnib 0xFFFF) := by rfl
theorem test_decode_isubnib : decode 0x0B7E130000 = .ok (.isubnib 0x7E13) := by rfl
theorem test_decode_gfmul : decode 0x0C0006000B = .ok (.gfmul 0x0006 0x000B) := by rfl
theorem test_decode_ark : decode 0x1012344AF5 = .ok (.ark 0x1234 0x4AF5) := by rfl
theorem test_decode_shrow : decode 0x1116C40000 = .ok (.shrow 0x16C4) := by rfl
theorem test_decode_mixcol : decode 0x126C400000 = .ok (.mixcol 0x6C40) := by rfl
theorem test_decode_imixcol : decode 0x1337430000 = .ok (.imixcol 0x3743) := by rfl
theorem test_decode_rotnib : decode 0x1401000000 = .ok (.rotnib 0x0100) := by rfl
theorem test_decode_expand : decode 0x184AF50000 = .ok (.expand 0x4AF5) := by rfl
theorem test_decode_gfunc : decode 0x1900F50000 = .ok (.gfunc 0x00F5) := by rfl
theorem test_decode_enc : decode 0x1CD7280000 = .ok (.enc 0xD728) := by rfl
theorem test_decode_dec : decode 0x1DF4B10000 = .ok (.dec 0xF4B1) := by rfl

/-- X1, X2: the all-zero word and a word with opcode 0x1F are refused by name. -/
theorem test_decode_reserved : decode 0x0000000000 = .error (.reservedOpcode 0x00) ∧
    decode 0x1F12345678 = .error (.reservedOpcode 0x1F) := ⟨by rfl, by rfl⟩

/-- R81: the two encodings the rule prints. -/
theorem test_encode : encode (.nib 0x1234 0x0002) = 0x0112340002 ∧ encode (.enc 0xD728) = 0x1CD7280000 := by decide

/-- R74: no two rows of the table select one word. -/
theorem test_rows_disjoint : (mnemonicTexts.map fun r => r.2.matchWord).Nodup := by decide

/-- The table's numbering: 37 bits in five bytes, and bits above bit 36 on no wire (log entry 12). -/
theorem test_table_word : decodeTableWord 40 0x0C0006000B = some (.gfmul 0x0006 0x000B) ∧
    decodeTableWord 40 0x0000000000 = none ∧ decodeTableWord 40 0xEC0006000B = some (.gfmul 0x0006 0x000B) := by decide

/-! ### One test per command, the witness of its statement -/

/-- V 2.1: NIB 0xABCD at slots 0 to 3, and at 4 and 0xFFFF. -/
theorem test_nib : keyed.Accepting ∧ resultOf (exec (.nib 0xABCD 0) keyed) = some (0x000A, true) ∧
    resultOf (exec (.nib 0xABCD 1) keyed) = some (0x000C, true) ∧
    resultOf (exec (.nib 0xABCD 2) keyed) = some (0x000B, true) ∧
    resultOf (exec (.nib 0xABCD 3) keyed) = some (0x000D, true) ∧
    faultOf (exec (.nib 0xABCD 4) keyed) = some (2, 0x1234, true) ∧
    faultOf (exec (.nib 0xABCD 0xFFFF) keyed) = some (2, 0x1234, true) := by decide

/-- V 2.1. -/
theorem test_lob : unkeyed.Accepting ∧ resultOf (exec (.lob 0x4AF5) unkeyed) = some (0x00F5, true) := by decide

/-- V 2.1. -/
theorem test_hib : unkeyed.Accepting ∧ resultOf (exec (.hib 0x4AF5) unkeyed) = some (0x004A, true) ∧
    resultOf (exec (.hib 0x00FF) unkeyed) = some (0x0000, true) := by decide

/-- R105 and V 2.1. -/
theorem test_hi2 : keyed.Accepting ∧ resultOf (exec (.hi2 0x000B) keyed) = some (0x0002, true) ∧
    resultOf (exec (.hi2 0x000F) keyed) = some (0x0003, true) ∧
    faultOf (exec (.hi2 0x0010) keyed) = some (2, 0x1234, true) := by decide

/-- R106 and V 2.1. -/
theorem test_lo2 : keyed.Accepting ∧ resultOf (exec (.lo2 0x0006) keyed) = some (0x0002, true) ∧
    resultOf (exec (.lo2 0x000F) keyed) = some (0x0003, true) ∧
    faultOf (exec (.lo2 0x8000) keyed) = some (2, 0x1234, true) := by decide

/-- R123: S(6) = 8, S(F) = 7, and 0x10 is not reduced to 0. -/
theorem test_sbox : keyed.Accepting ∧ resultOf (exec (.sbox 0x0006) keyed) = some (0x0008, true) ∧
    resultOf (exec (.sbox 0x000F) keyed) = some (0x0007, true) ∧
    faultOf (exec (.sbox 0x0010) keyed) = some (2, 0x1234, true) := by decide

/-- R124: Sinv(8) = 6, Sinv(F) = E. -/
theorem test_isbox : keyed.Accepting ∧ resultOf (exec (.isbox 0x0008) keyed) = some (0x0006, true) ∧
    resultOf (exec (.isbox 0x000F) keyed) = some (0x000E, true) ∧
    faultOf (exec (.isbox 0xFFFF) keyed) = some (2, 0x1234, true) := by decide

/-- V 2.2. -/
theorem test_subnib : unkeyed.Accepting ∧ resultOf (exec (.subnib 0x1234) unkeyed) = some (0x4ABD, true) ∧
    resultOf (exec (.subnib 0x6C40) unkeyed) = some (0x8CD9, true) := by decide

/-- V 2.2. -/
theorem test_isubnib : unkeyed.Accepting ∧ resultOf (exec (.isubnib 0x1234) unkeyed) = some (0x59B1, true) ∧
    resultOf (exec (.isubnib 0x6C40) unkeyed) = some (0x8C1A, true) := by decide

/-- V 2.3: 6 times B is F, F times F is A; either operand out of range faults. -/
theorem test_gfmul : keyed.Accepting ∧ resultOf (exec (.gfmul 0x0006 0x000B) keyed) = some (0x000F, true) ∧
    resultOf (exec (.gfmul 0x000F 0x000F) keyed) = some (0x000A, true) ∧
    faultOf (exec (.gfmul 0x0010 0x0003) keyed) = some (2, 0x1234, true) ∧
    faultOf (exec (.gfmul 0x0003 0x0010) keyed) = some (2, 0x1234, true) := by decide

/-- X16: no key is needed. -/
theorem test_ark : unkeyed.Accepting ∧ resultOf (exec (.ark 0x1234 0x4AF5) unkeyed) = some (0x58C1, true) := by decide

/-- V 2.4. -/
theorem test_shrow : unkeyed.Accepting ∧ resultOf (exec (.shrow 0x16C4) unkeyed) = some (0x14C6, true) := by decide

/-- V 2.4. -/
theorem test_mixcol : unkeyed.Accepting ∧ resultOf (exec (.mixcol 0x6C40) unkeyed) = some (0x3743, true) ∧
    resultOf (exec (.mixcol 0x0100) unkeyed) = some (0x4100, true) := by decide

/-- V 2.4. -/
theorem test_imixcol : unkeyed.Accepting ∧ resultOf (exec (.imixcol 0x2073) unkeyed) = some (0x14C6, true) ∧
    resultOf (exec (.imixcol 0x0010) unkeyed) = some (0x0092, true) := by decide

/-- V 2.4. -/
theorem test_rotnib : keyed.Accepting ∧ resultOf (exec (.rotnib 0x00F5) keyed) = some (0x005F, true) ∧
    resultOf (exec (.rotnib 0x00FF) keyed) = some (0x00FF, true) ∧
    faultOf (exec (.rotnib 0x0100) keyed) = some (2, 0x1234, true) := by decide

/-- V 2.5. -/
theorem test_gfunc : keyed.Accepting ∧ resultOf (exec (.gfunc 0x00F5) keyed) = some (0x0017, true) ∧
    resultOf (exec (.gfunc 0x00FF) keyed) = some (0x0077, true) ∧
    faultOf (exec (.gfunc 0x0100) keyed) = some (2, 0x1234, true) := by decide

/-- X15: the round keys of 0x4AF5, and Y, YV as they were. -/
theorem test_expand : unkeyed.Accepting ∧ nextOf (exec (.expand 0x4AF5) unkeyed) = some keyed := by decide

/-- V 2.5: the keys of 0xA73B and of 0x2D55. -/
theorem test_expandKey : expandKey 0xA73B = { k0 := 0xA73B, k1 := 0x1C27, k2 := 0x7651 } ∧
    expandKey 0x2D55 = { k0 := 0x2D55, k1 := 0xBCE9, k2 := 0xA34A } := by decide

/-- V 2.6 P1 and P2; X8. -/
theorem test_enc : keyed.Accepting ∧ keyed.kv = true ∧ unkeyed.Accepting ∧ unkeyed.kv = false ∧
    resultOf (exec (.enc 0x1234) keyed) = some (0xF4B1, true) ∧
    resultOf (exec (.enc 0xD728) keyed) = some (0x24EC, true) ∧
    faultOf (exec (.enc 0x1234) unkeyed) = some (3, 0x1234, true) := by decide

/-- V 2.6: a ciphertext, a value that is none; X9. -/
theorem test_dec : keyed.Accepting ∧ keyed.kv = true ∧ unkeyed.Accepting ∧ unkeyed.kv = false ∧
    resultOf (exec (.dec 0xF4B1) keyed) = some (0x1234, true) ∧
    resultOf (exec (.dec 0x1234) keyed) = some (0xE838, true) ∧
    faultOf (exec (.dec 0x071E) unkeyed) = some (3, 0x1234, true) := by decide

/-! ### Steps -/

/-- X10: a faulted core ignores a good command and a reserved opcode alike. -/
theorem test_faulted_ignores : nextOf (present (.cmd 0x0800010000) faulted) = some faulted ∧
    nextOf (present (.cmd 0x0000000000) faulted) = some faulted := by decide

/-- X1: the all-zero word after reset. -/
theorem test_illegal_op : nextOf (present (.cmd 0x0000000000) State.reset) =
    some { State.reset with fault := true, fcode := 1 } := by decide

/-- X12: `rst = 1` with a command on the port; the ports show ResetState and the next pins are still to come. -/
theorem test_reset_step : (nextOf (step { faulted with
      pending := [{ pinsOfWord 0x1C12340000 with rst := true }, idlePins] })).map (fun s => (s.ports, s.pending)) =
    some (clearedPorts, [idlePins]) := by decide

/-- X11: an idle step, and a step of a host with no more inputs, change nothing. -/
theorem test_idle_step : nextOf (step { faulted with pending := [idlePins] }) = some faulted ∧
    nextOf (step keyed) = some keyed := by decide

/-- The first step after reset runs the word that `withFetchWord` puts on the port (V 2.2). -/
theorem test_first_instruction : resultOf (step (State.reset.withFetchWord 40 0x0800060000)) = some (0x0008, true) := by
  decide

/-- The ports of a core with a result and no keys (R29, R32). -/
theorem test_ports : unkeyed.ports = { clearedPorts with y := some 0x1234, yv := true } := by decide

/-! ### Assembler (R81, R82) -/

/-- R81: the line the rule prints, with a comment, and an omitted operand. -/
theorem test_assemble_line :
    assembleLine ['N', 'I', 'B', ' ', '0', 'x', '1', '2', '3', '4', ',', ' ', '0', 'x', '0', '0', '0', '2', ' ', '-', '-', ' ', 'n'] =
      some [pinsOfWord 0x0112340002] ∧
    assembleLine ['E', 'N', 'C', ' ', '0', 'x', 'D', '7', '2', '8'] = some [pinsOfWord 0x1CD7280000] ∧
    assembleLine ['H', 'I', '2', ' ', '0', 'b', '1', '0', '1', '1'] = some [pinsOfWord 0x04000B0000] := by decide

/-- R82: NOP is one idle step; an unknown name and an operand too wide are errors. -/
theorem test_assemble_pseudo : assembleLine ['N', 'O', 'P'] = some [idlePins] ∧ assembleLine ['N', 'O', 'T'] = none ∧
    assembleLine ['L', 'O', 'B', ' ', '0', 'x', '1', '0', '0', '0', '0'] = none ∧
    assembleLine ['S', 'U', 'B', ' ', '0', 'x', '6', ',', '0', 'x', '1'] = some [pinsOfWord 0x0900060000] ∧
    assembleLine ['S', 'U', 'B', ' ', '0', 'x', '6', ',', '0', 'x', '2'] = none := by decide

/-- R81: a word in 10 hexadecimal digits. -/
theorem test_word_text : wordText 0x1CD7280000 = ['0', 'x', '1', 'C', 'D', '7', '2', '8', '0', '0', '0', '0'] := by decide

/-! ### Witnesses of the other statements with hypotheses -/

theorem test_witness_NibbleOpsRebuildTheirOperand : (Instr.nib 0xABCD 3).mnemonic ∈ ([.nib, .lob, .hib, .hi2, .lo2] :
    List Mnemonic) ∧ (Instr.nib 0xABCD 3).wellFormed = true ∧ keyed.Accepting := by decide

/-- The premise of injectivity, and the fixed point. -/
theorem test_witness_SubstitutionTablesInvertEachOther :
    substitute 0xC false = substitute 0xC false ∧ substitute 0xC false = 0xC := by decide

/-- A nonzero element, and a product that is zero. -/
theorem test_witness_GfmulIsFieldProduct : (0xF : Nibble) ≠ 0 ∧ gfmul 0xF 0xA = 8 + 4 ∧ gfmul 0 0xF = 0 := by decide

theorem test_witness_ExpandKeyFollowsSchedule : expandKey 0x4AF5 = expandKey 0x4AF5 := rfl

theorem test_witness_CipherRoundTrip : unkeyed.Accepting ∧ keyed.Accepting := by decide

theorem test_witness_CipherEqualsItsStageCommands : keyed.Accepting ∧ keyed.kv = true := by decide

/-- A word with a used and a word with an unused `b`. -/
theorem test_witness_EncodeDecodeIsCanonical : decode 0x1012344AF5 = .ok (.ark 0x1234 0x4AF5) ∧
    opField 0x1012344AF5 ∈ ([0x01, 0x0C, 0x10] : List Opcode) ∧ decode 0x02FFFF1234 = .ok (.lob 0xFFFF) ∧
    opField 0x02FFFF1234 ∉ ([0x01, 0x0C, 0x10] : List Opcode) := ⟨by rfl, by decide, by rfl, by decide⟩

/-- X13: opcode 0x02 ignores `b`. -/
theorem test_witness_UnusedOperandIsIgnored : (0x02 : Opcode) ∉ ([0x01, 0x0C, 0x10] : List Opcode) ∧
    (Instr.lob 0xFFFF).mnemonic ∉ ([.nib, .gfmul, .ark] : List Mnemonic) ∧
    resultOf (present (.cmd (cmdWord 0x02 0xFFFF 0x1234)) keyed) = some (0x00FF, true) := by decide

theorem test_witness_ReservedOpcodesAreIllegal : keyed.Accepting ∧ (0x1F : Opcode) ∈
    ([0x00, 0x06, 0x07, 0x0D, 0x0E, 0x0F, 0x15, 0x16, 0x17, 0x1A, 0x1B, 0x1E, 0x1F] : List Opcode) := by decide

/-- A word of each of the three kinds. -/
theorem test_witness_EveryWordHasOneOutcome : keyed.Accepting ∧ decode 0x01ABCD0003 = .ok (.nib 0xABCD 3) ∧
    decode 0x01ABCD0004 = .ok (.nib 0xABCD 4) ∧ opField 0x1F12345678 ∈ reservedOpcodes :=
  ⟨rfl, by rfl, by rfl, by decide⟩

/-- The values of `inv` on both sides of each clause. -/
theorem test_witness_PseudoCommandsExpand : keyed.Accepting ∧ (0 : Word) = 0 ∧ (1 : Word) = 1 ∧ (1 : Word) < 2 := by decide

theorem test_witness_StepRunsDecodedCommand :
    ({ keyed with pending := [pinsOfWord 0x0800060000, idlePins] } : State).pending = pinsOfWord 0x0800060000 :: [idlePins] ∧
      (pinsOfWord 0x0800060000).rst = false ∧ (pinsOfWord 0x0800060000).cmdValid = true ∧
      decode (cmdWord (pinsOfWord 0x0800060000).cmdOp (pinsOfWord 0x0800060000).cmdA (pinsOfWord 0x0800060000).cmdB) =
        .ok (.sbox 0x0006) := ⟨rfl, rfl, rfl, by rfl⟩

/-- A word under each clause of the step function: faulted, reserved, out of range, no keys, executed. -/
theorem test_witness_PresentFollowsStepFunction : faulted.fault = true ∧ keyed.fault = false ∧
    opField 0x0600000000 ∈ reservedOpcodes ∧
    OperandOutOfRange (opField 0x1401000000) (aField 0x1401000000) (bField 0x1401000000) ∧
    (UsesRoundKeys (opField 0x1C12340000) ∧ unkeyed.kv = false) ∧
    (opField 0x1C12340000 ∉ reservedOpcodes ∧
      ¬ OperandOutOfRange (opField 0x1C12340000) (aField 0x1C12340000) (bField 0x1C12340000) ∧
      ¬ (UsesRoundKeys (opField 0x1C12340000) ∧ keyed.kv = false)) := by decide

/-- The value just out of range and the value just in range, for each restricted operand, and a command of full words. -/
theorem test_witness_OperandOutOfRangeFaults : keyed.Accepting ∧ keyed.FaultCodeAgrees ∧
    OperandOutOfRange 0x01 0xABCD 4 ∧ ¬ OperandOutOfRange 0x01 0xABCD 3 ∧
    OperandOutOfRange 0x04 0x10 0 ∧ ¬ OperandOutOfRange 0x04 0xF 0 ∧
    OperandOutOfRange 0x0C 0x10 0xF ∧ OperandOutOfRange 0x0C 0xF 0x10 ∧ ¬ OperandOutOfRange 0x0C 0xF 0xF ∧
    OperandOutOfRange 0x19 0x100 0 ∧ ¬ OperandOutOfRange 0x19 0xFF 0 ∧ (0x01 : Opcode) ∉ reservedOpcodes ∧
    (0x1D : Opcode) ∈ ([0x02, 0x03, 0x0A, 0x0B, 0x10, 0x11, 0x12, 0x13, 0x18, 0x1C, 0x1D] : List Opcode) := by
  refine ⟨?_, ?_, ?_, ?_, ?_, ?_, ?_, ?_, ?_, ?_, ?_, ?_, ?_⟩ <;> decide

/-- Each of its three clauses: no keys, a reset, a command after which keys are stored. -/
theorem test_witness_CipherWithoutKeysFaults : unkeyed.Accepting ∧ unkeyed.kv = false ∧
    nextOf (present .reset keyed) = some State.reset ∧ nextOf (exec (.expand 0x4AF5) unkeyed) = some keyed ∧
    keyed.kv = true := by decide

/-- Clauses one and two at each cause, in two cores of different content: a reserved opcode, NIB at slot 4, ENC without keys. -/
theorem test_witness_AtMostOneFaultCause : unkeyed.Accepting ∧ State.reset.Accepting ∧
    nextOf (present (.cmd 0x1F12345678) unkeyed) = some { unkeyed with fault := true, fcode := 1 } ∧
    nextOf (present (.cmd 0x1F12345678) State.reset) = some { State.reset with fault := true, fcode := 1 } ∧
    nextOf (present (.cmd 0x01ABCD0004) unkeyed) = some { unkeyed with fault := true, fcode := 2 } ∧
    nextOf (present (.cmd 0x01ABCD0004) State.reset) = some { State.reset with fault := true, fcode := 2 } ∧
    nextOf (present (.cmd 0x1C12340000) unkeyed) = some { unkeyed with fault := true, fcode := 3 } ∧
    nextOf (present (.cmd 0x1C12340000) State.reset) = some { State.reset with fault := true, fcode := 3 } := by decide

/-- Clauses three to five: an ill-formed decoded command, GFMUL with both operands just out of range, and `rst = 1` with a
command on the port. -/
theorem test_witness_AtMostOneFaultCause_rest : decode 0x01ABCD0004 = .ok (.nib 0xABCD 4) ∧
    (Instr.nib 0xABCD 4).wellFormed = false ∧ keyed.Accepting ∧ (0xF : Word) < 0x10 ∧
    ({ pinsOfWord 0x1C12340000 with rst := true } : Pins).rst = true := ⟨by rfl, by decide, by decide, by decide, rfl⟩

theorem test_witness_FaultsArePrecise : keyed.Accepting ∧ nextOf (present (.cmd 0x01ABCD0004) keyed) = some faulted ∧
    faulted.fault = true := by decide

theorem test_witness_FaultedCoreIgnoresCommands : faulted.fault = true ∧
    Input.reset ∉ ([.cmd 0x0800010000, .idle, .cmd 0x0000000000] : List Input) := by decide

theorem test_witness_ResetClearsFromAnyState :
    ({ faulted with pending := [resetPins, idlePins] } : State).pending = resetPins :: [idlePins] ∧ resetPins.rst = true ∧
      Input.idle ≠ .reset ∧ nextOf (present .idle faulted) = some faulted ∧ faulted.kv = true ∧ faulted.yv = true ∧
      faulted.fault = true ∧ faulted.fcode ≠ 0 := by decide

/-- A command that completes, one that takes a fault, and an input that is no reset. -/
theorem test_witness_CommandsSetOnlyTheirFlags : unkeyed.Accepting ∧
    (nextOf (exec (.expand 0x4AF5) unkeyed)).map (fun t => t.fault) = some false ∧
    (nextOf (exec (.sbox 0x0010) unkeyed)).map (fun t => t.fault) = some true ∧ Input.idle ≠ .reset := by decide

/-- A Reset step of a faulted core; one of the 17 commands, EXPAND, and one of the two that need keys. -/
theorem test_witness_CommandsAvailableAfterReset : nextOf (present .reset faulted) = some State.reset ∧ (Instr.gfunc 0x00FF).mnemonic ≠ .enc ∧
    (Instr.gfunc 0x00FF).mnemonic ≠ .dec ∧ (Instr.gfunc 0x00FF).wellFormed = true ∧
    (Instr.expand 0x4AF5).mnemonic = .expand ∧ (Instr.dec 0x071E).mnemonic = .dec := by decide

/-- A command that is ignored, one that takes a fault, one that writes Y, and EXPAND. -/
theorem test_witness_CommandFrame : nextOf (exec (.sbox 0x6) faulted) = some faulted ∧
    nextOf (exec (.nib 0xABCD 4) keyed) = some faulted ∧
    nextOf (exec (.ark 0x1234 0) { keyed with y := 0 }) = some keyed ∧
    nextOf (exec (.expand 0x4AF5) unkeyed) = some keyed := by decide

/-- ENC in two states that differ in Y and YV alone, and a command that needs no keys in two that differ in all. -/
theorem test_witness_DatapathIsPure : keyed.Accepting ∧ ({ keyed with y := 0, yv := false } : State).Accepting ∧
    (Instr.enc 0x1234).wellFormed = true ∧ (Instr.enc 0x1234).mnemonic = .enc ∧ keyed.kv = true ∧
    ({ keyed with y := 0, yv := false } : State).kv = true ∧ State.reset.Accepting ∧
    (Instr.sbox 0x000F).wellFormed = true ∧ (Instr.sbox 0x000F).mnemonic ≠ .enc ∧ (Instr.sbox 0x000F).mnemonic ≠ .dec := by
  decide

/-- Two states that differ in every register that holds no value. -/
theorem test_witness_UnwrittenRegistersNeverMatter :
    SameSeen State.reset { State.reset with rk0 := 0xFFFF, rk1 := 0x1111, rk2 := 0x2222, y := 0x3333 } := by
  constructor <;> decide

/-- A state with keys that meets the invariant, and a step from it. -/
theorem test_witness_StepKeepsInvariant : keyed.Inv ∧ step keyed = .next keyed :=
  ⟨⟨by decide, fun _ => ⟨0x4AF5, by decide, rfl⟩⟩, rfl⟩

/-- A core with a result and keys, and one with neither. -/
theorem test_witness_PortsShowTheirElements : keyed.yv = true ∧ keyed.kv = true ∧
    State.reset.yv = false ∧ State.reset.kv = false := by decide

/-- A word a faulted core ignores, one that takes a fault, one that writes Y (V 2.2), and EXPAND (X15). -/
theorem test_witness_PortsAfterCommand : nextOf (present (.cmd 0x0800010000) faulted) = some faulted ∧
    nextOf (present (.cmd 0x01ABCD0004) keyed) = some faulted ∧ keyed.fault = false ∧ faulted.fault = true ∧
    decode 0x0800060000 = .ok (.sbox 0x0006) ∧
    nextOf (present (.cmd 0x0800060000) keyed) = some { keyed with y := 0x0008 } ∧
    decode 0x184AF50000 = .ok (.expand 0x4AF5) ∧ nextOf (present (.cmd 0x184AF50000) unkeyed) = some keyed := by
  refine ⟨?_, ?_, ?_, ?_, by rfl, ?_, by rfl, ?_⟩ <;> decide

/-- R32, R236: the ports of a core that took OPERAND_RANGE still show the earlier result and the keys. -/
theorem test_ports_faulted : faulted.ports =
    ⟨some 0x1234, true, some 0x4AF5, some 0xDD28, some 0x87AF, true, true, 2⟩ := by decide

end Sys2Proof.Tests
end

section
/-!
PROOFS. The state, its invariant and its ports (10_state.md). What one command does is said once, as an equation in each
of its cases (`exec_of_faulted`, `exec_of_illFormed`, `exec_of_noKey`, `exec_expand_of_accepting`, `exec_of_result`); what
it can do is `ExecCase` and `PresentCase` of the model's own laws.
-/

namespace Sys2Proof.Machine

/-! ### The operand checks and the command port, one equation per case -/

theorem withSlot_of_legal {v : Word} (h : slotLegal v = true) (s : State) (k : Fin 4 → State) :
    withSlot v s k = k (slotOf v) := by simp [withSlot, h]

theorem withNibble_of_legal {v : Word} (h : nibbleLegal v = true) (s : State) (k : Nibble → State) :
    withNibble v s k = k (nibbleOf v) := by simp [withNibble, h]

theorem withByte_of_legal {v : Word} (h : byteLegal v = true) (s : State) (k : Byte → State) :
    withByte v s k = k (byteOf v) := by simp [withByte, h]

theorem withRoundKeys_of_kv {s : State} (h : s.kv = true) (k : RoundKeys → State) :
    withRoundKeys s k = k (readRoundKeys s) := by simp [withRoundKeys, h]

theorem withRoundKeys_of_no_kv {s : State} (h : s.kv = false) (k : RoundKeys → State) :
    withRoundKeys s k = raise .noKey s := by simp [withRoundKeys, h]

/-- Pins with `rst = 0` and `cmd_valid = 1` present their word (10_state.md R32). -/
theorem input_of_valid {p : Pins} (hr : p.rst = false) (hv : p.cmdValid = true) : p.input = .cmd p.word := by
  simp [Pins.input, hr, hv]

theorem advance_of_cons {s : State} {p : Pins} {rest : List Pins} (h : s.pending = p :: rest) :
    advance s = { s with pending := rest } := by simp [advance, h]

theorem present_of_decode {w : CmdWord} {i : Instr} (h : decode w = .ok i) (s : State) :
    present (.cmd w) s = exec i s := by simp [present, h]

theorem present_of_reserved {w : CmdWord} (h : opField w ∈ reservedOpcodes) (s : State) :
    present (.cmd w) s = accept s (raise .illegalOp) := by
  simp [present, decode, (mnemonicOf_eq_none _).2 h]

/-! ### What one command does, one equation per case -/

/-- `ENC` and `DEC`, the commands that read the stored round keys (10_state.md R34). -/
abbrev ReadsRoundKeys (i : Instr) : Prop := i.mnemonic = .enc ∨ i.mnemonic = .dec

theorem wellFormed_of_readsRoundKeys {i : Instr} (h : ReadsRoundKeys i) : i.wellFormed = true := by
  cases i <;> simp_all [ReadsRoundKeys, Instr.mnemonic, Instr.wellFormed]

theorem eq_expand_of_mnemonic {i : Instr} (h : i.mnemonic = .expand) : ∃ key, i = .expand key := by
  cases i with
  | expand key => exact ⟨key, rfl⟩
  | _ => simp [Instr.mnemonic] at h

/-- The result of a well-formed command, from its operands and the stored round keys (10_state.md R24). `EXPAND` writes
no result, and gets the 0 no lemma reads. -/
def resultValue (k : RoundKeys) : Instr → Word
  | .nib a b => zext16 (nibble a (slotOf b))
  | .lob a => zext16 (lowByte a)
  | .hib a => zext16 (highByte a)
  | .hi2 a => zext16 (nibbleRow (nibbleOf a))
  | .lo2 a => zext16 (nibbleCol (nibbleOf a))
  | .sbox a => zext16 (substitute (nibbleOf a) false)
  | .isbox a => zext16 (substitute (nibbleOf a) true)
  | .subnib a => subNibbles a false
  | .isubnib a => subNibbles a true
  | .gfmul a b => zext16 (romRead (.gfmul (nibbleOf a ++ nibbleOf b)))
  | .ark a b => addRoundKey a b
  | .shrow a => shiftRow a
  | .mixcol a => mixColumns a
  | .imixcol a => invMixColumns a
  | .rotnib a => zext16 (rotNib (byteOf a))
  | .expand _ => 0
  | .gfunc a => zext16 (g (byteOf a))
  | .enc a => encrypt a k
  | .dec a => decrypt a k

/-- Only `ENC` and `DEC` read the round keys (10_state.md R31). -/
theorem resultValue_congr {i : Instr} {k k' : RoundKeys} (h : ReadsRoundKeys i → k = k') :
    resultValue k i = resultValue k' i := by
  cases i with
  | enc a => rw [h (.inl rfl)]
  | dec a => rw [h (.inr rfl)]
  | _ => rfl

theorem exec_of_faulted {s : State} (hf : s.fault = true) (i : Instr) : exec i s = .next s := by
  obtain ⟨t, h, hc⟩ := exec_cases i s
  cases hc with
  | ignored _ => exact h
  | result hf' | keys hf' | operandRange hf' | noKey hf' => simp [hf] at hf'

/-- An ill-formed command takes OPERAND_RANGE (60_exceptions.md R232). -/
theorem exec_of_illFormed {i : Instr} {s : State} (hf : s.fault = false) (hw : i.wellFormed = false) :
    exec i s = .next (raise .operandRange s) := by
  obtain ⟨t, h, hc⟩ := exec_cases i s
  cases hc with
  | ignored hf' => simp [hf] at hf'
  | result _ _ hw' r => simp [hw] at hw'
  | keys _ key hi => simp [hi, Instr.wellFormed] at hw
  | operandRange _ _ => exact h
  | noKey _ hm _ => simp [wellFormed_of_readsRoundKeys hm] at hw

/-- `ENC` and `DEC` take NO_KEY while `KV = 0` (60_exceptions.md R233). -/
theorem exec_of_noKey {i : Instr} {s : State} (hf : s.fault = false) (hi : ReadsRoundKeys i) (hk : s.kv = false) :
    exec i s = .next (raise .noKey s) := by
  cases i with
  | enc a => rw [exec_enc, accept_of_accepting hf, withRoundKeys_of_no_kv hk]
  | dec a => rw [exec_dec, accept_of_accepting hf, withRoundKeys_of_no_kv hk]
  | _ => simp [ReadsRoundKeys, Instr.mnemonic] at hi

/-- `EXPAND` loads the round keys (45_key_schedule.md R196). -/
theorem exec_expand_of_accepting {s : State} (hf : s.fault = false) (key : Word) :
    exec (.expand key) s = .next (writeRoundKeys (expandKey key) s) := by
  rw [exec_expand, accept_of_accepting hf]

/-- Every other command that takes no fault writes its result (10_state.md R24). -/
theorem exec_of_result {i : Instr} {s : State} (hf : s.fault = false) (hm : i.mnemonic ≠ .expand)
    (hw : i.wellFormed = true) (hk : ReadsRoundKeys i → s.kv = true) :
    exec i s = .next (writeResult (resultValue (readRoundKeys s) i) s) := by
  cases i with
  | expand key => exact absurd rfl hm
  | nib a b => rw [exec_nib, accept_of_accepting hf, withSlot_of_legal hw]; rfl
  | hi2 a => rw [exec_hi2, accept_of_accepting hf, withNibble_of_legal hw]; rfl
  | lo2 a => rw [exec_lo2, accept_of_accepting hf, withNibble_of_legal hw]; rfl
  | sbox a => rw [exec_sbox, accept_of_accepting hf, withNibble_of_legal hw]; rfl
  | isbox a => rw [exec_isbox, accept_of_accepting hf, withNibble_of_legal hw]; rfl
  | gfmul a b =>
    obtain ⟨ha, hb⟩ : nibbleLegal a = true ∧ nibbleLegal b = true := by simpa [Instr.wellFormed] using hw
    rw [exec_gfmul, accept_of_accepting hf, withNibble_of_legal ha, withNibble_of_legal hb]; rfl
  | rotnib a => rw [exec_rotnib, accept_of_accepting hf, withByte_of_legal hw]; rfl
  | gfunc a => rw [exec_gfunc, accept_of_accepting hf, withByte_of_legal hw]; rfl
  | enc a => rw [exec_enc, accept_of_accepting hf, withRoundKeys_of_kv (hk (.inl rfl))]; rfl
  | dec a => rw [exec_dec, accept_of_accepting hf, withRoundKeys_of_kv (hk (.inr rfl))]; rfl
  | _ => exact accept_of_accepting hf _

/-- A command that meets no cause of a fault completes: neither FAULT nor FCODE changes (60_exceptions.md R230). -/
theorem exec_completes {i : Instr} {s : State} (hf : s.fault = false) (hw : i.wellFormed = true)
    (hk : ReadsRoundKeys i → s.kv = true) :
    ∃ t, exec i s = .next t ∧ t.fault = false ∧ t.fcode = s.fcode := by
  obtain ⟨t, h, hc⟩ := exec_cases i s
  refine ⟨t, h, ?_⟩
  cases hc with
  | ignored hf' => simp [hf] at hf'
  | result _ _ _ r => exact ⟨hf, rfl⟩
  | keys _ key _ => exact ⟨hf, rfl⟩
  | operandRange _ hw' => simp [hw] at hw'
  | noKey _ hm hk' => simp [hk hm] at hk'

/-! ### The invariant (10_state.md R28, R35) -/

/-- K0 is the key (45_key_schedule.md R194). -/
theorem expandKey_k0 (key : Word) : (expandKey key).k0 = key := by
  calc highByte key ++ lowByte key = key.extractLsb' 0 16 :=
        BitVec.extractLsb'_append_extractLsb'_eq_extractLsb' rfl
    _ = key := by simp

theorem inv_resetCore (s : State) : (resetCore s).Inv := by
  refine ⟨?_, ?_⟩
  · simp [State.FaultCodeAgrees]
  · simp [State.KeysAreExpanded]

theorem inv_advance {s : State} (h : s.Inv) : (advance s).Inv := h

theorem inv_raise {s : State} (h : s.Inv) (c : Cause) : (raise c s).Inv := by
  obtain ⟨-, hkeys⟩ := h
  exact ⟨⟨fun _ => Cause_code_ne_zero c, fun _ => rfl⟩, hkeys⟩

theorem inv_writeResult {s : State} (h : s.Inv) (r : Word) : (writeResult r s).Inv := h

theorem inv_writeRoundKeys {s : State} (h : s.Inv) (key : Word) : (writeRoundKeys (expandKey key) s).Inv := by
  obtain ⟨hcode, -⟩ := h
  exact ⟨hcode, fun _ => ⟨key, readRoundKeys_writeRoundKeys _ _, expandKey_k0 key⟩⟩

theorem ExecCase.keeps_inv {i : Instr} {s t : State} (hc : ExecCase i s t) (h : s.Inv) : t.Inv := by
  cases hc with
  | ignored _ => exact h
  | result _ _ _ r => exact inv_writeResult h r
  | keys _ key _ => exact inv_writeRoundKeys h key
  | operandRange _ _ => exact inv_raise h _
  | noKey _ _ _ => exact inv_raise h _

theorem PresentCase.keeps_inv {input : Input} {s t : State} (hc : PresentCase s input t) (h : s.Inv) : t.Inv := by
  cases hc with
  | reset => exact inv_resetCore s
  | idle => exact h
  | exec w i t _ ht => exact ht.keeps_inv h
  | ignored w _ => exact h
  | illegalOp w _ _ => exact inv_raise h _

/-- Settles O56: the input of the step keeps the invariant, which does not read the pins. -/
theorem stepKeepsInvariant : Obligations.StepKeepsInvariant := fun _ _ h hstep =>
  (step_cases hstep).keeps_inv (inv_advance h)

/-- Settles O57: the state at reset is what a Reset step makes of it. -/
theorem resetMeetsInvariant : Obligations.ResetMeetsInvariant := inv_resetCore State.reset

/-! ### The step function clause by clause (10_state.md R30, R80) -/

/-- The range list of 30_encoding.md R76 on the fields of the word is the command's own check. -/
theorem operandOutOfRange_opcode_iff (m : Mnemonic) (a b : Word) :
    OperandOutOfRange m.opcode a b ↔ (m.instr a b).wellFormed = false := by
  cases m <;> simp [OperandOutOfRange, Mnemonic.opcode, Mnemonic.instr, Instr.wellFormed, slotLegal, nibbleLegal,
    byteLegal]
  case gfmul => simp [imp_iff_not_or]

theorem usesRoundKeys_opcode_iff (m : Mnemonic) (a b : Word) :
    UsesRoundKeys m.opcode ↔ ReadsRoundKeys (m.instr a b) := by
  cases m <;> simp [UsesRoundKeys, ReadsRoundKeys, Mnemonic.opcode]

/-- Settles O43: the decoder tells the reserved opcodes from the commands, and a command meets each clause's own equation. -/
theorem presentFollowsStepFunction : Obligations.PresentFollowsStepFunction := by
  refine fun s => ⟨⟨resetCore s, rfl, rfl, rfl, rfl, rfl⟩, rfl, fun w => ?_⟩
  rcases decode_cases w with ⟨m, hm, hd⟩ | ⟨hr, -⟩
  · have hop := opcode_of_mnemonicOf hm
    have hnr : opField w ∉ reservedOpcodes := fun hr => by simp [(mnemonicOf_eq_none _).2 hr] at hm
    rw [present_of_decode hd, if_neg hnr, ← hop]
    simp only [operandOutOfRange_opcode_iff, usesRoundKeys_opcode_iff m (aField w) (bField w)]
    split_ifs with hf hw hk
    · exact exec_of_faulted hf _
    · exact exec_of_illFormed (by simpa using hf) hw
    · exact exec_of_noKey (by simpa using hf) hk.1 hk.2
    · obtain ⟨t, ht, hfault, hcode⟩ := exec_completes (i := m.instr (aField w) (bField w)) (s := s)
        (by simpa using hf) (by simpa using hw) (fun hi => by simpa [hi] using hk)
      exact ⟨_, t, hd, rfl, ht, hfault, hcode⟩
  · rw [if_pos hr, present_of_reserved hr]
    split_ifs with hf
    · exact accept_of_faulted hf _
    · exact accept_of_accepting (by simpa using hf) _

/-! ### Flags and frame (10_state.md R27, R34; 60_exceptions.md R236) -/

/-- No command clears a flag: it writes one only to set it (10_state.md R27). -/
theorem ExecCase.keeps_flags {i : Instr} {s t : State} (hc : ExecCase i s t) :
    (s.kv = true → t.kv = true) ∧ (s.yv = true → t.yv = true) ∧ (s.fault = true → t.fault = true) := by
  cases hc <;> simp_all

theorem PresentCase.keeps_flags {input : Input} {s t : State} (hc : PresentCase s input t) (h : input ≠ .reset) :
    (s.kv = true → t.kv = true) ∧ (s.yv = true → t.yv = true) ∧ (s.fault = true → t.fault = true) := by
  cases hc with
  | reset => exact absurd rfl h
  | exec w i t _ ht => exact ht.keeps_flags
  | idle | ignored | illegalOp => simp

/-- Settles O50: the five cases of a command, and the input cases other than Reset. -/
theorem commandsSetOnlyTheirFlags : Obligations.CommandsSetOnlyTheirFlags := by
  refine ⟨fun i s hf => ?_, fun input s t h hp => (present_case_of_next hp).keeps_flags h, rfl, rfl, rfl⟩
  obtain ⟨t, ht, hc⟩ := exec_cases i s
  refine ⟨t, ht, ?_⟩
  cases hc with
  | ignored hf' => simp [hf] at hf'
  | result _ hm _ r => simp [hf, hm]
  | keys _ key hi => simp [hf, hi, Instr.mnemonic]
  | operandRange _ _ => simp
  | noKey _ _ _ => simp

/-- Settles O53: each of the five cases is one update of the state, which names all it changes. -/
theorem commandFrame : Obligations.CommandFrame := by
  intro i s t h
  cases exec_case_of_next h with
  | ignored hf => simp [hf]
  | result hf hm _ r => exact ⟨rfl, by simp [hf], by simp [hf], fun _ _ => rfl, fun _ hi => absurd hi hm⟩
  | keys hf key hi =>
    exact ⟨rfl, by simp [hf], by simp [hf], fun _ hm => absurd (by rw [hi]; rfl) hm, fun _ _ => rfl⟩
  | operandRange hf _ => exact ⟨rfl, by simp [hf], fun _ _ => rfl, by simp, by simp⟩
  | noKey hf _ _ => exact ⟨rfl, by simp [hf], fun _ _ => rfl, by simp, by simp⟩

/-! ### What a result depends on (10_state.md R29, R31) -/

/-- Settles O54: EXPAND writes the expansion of its operand, and every other command the value `resultValue` names. -/
theorem datapathIsPure : Obligations.DatapathIsPure := by
  intro i s s' hf hf' hw hkeys
  by_cases hm : i.mnemonic = .expand
  · obtain ⟨key, rfl⟩ := eq_expand_of_mnemonic hm
    exact ⟨_, _, exec_expand_of_accepting hf key, exec_expand_of_accepting hf' key, hf, hf',
      fun h => absurd hm h, fun _ => ⟨rfl, rfl, rfl⟩⟩
  · have hvalue : resultValue (readRoundKeys s) i = resultValue (readRoundKeys s') i :=
      resultValue_congr fun hi => by
        obtain ⟨-, -, h0, h1, h2⟩ := hkeys hi
        simp [readRoundKeys, h0, h1, h2]
    exact ⟨_, _, exec_of_result hf hm hw fun hi => (hkeys hi).1, exec_of_result hf' hm hw fun hi => (hkeys hi).2.1,
      hf, hf', fun _ => hvalue, fun h => absurd h hm⟩

theorem SameSeen.advance {s t : State} (h : SameSeen s t) :
    SameSeen (Machine.advance s) (Machine.advance t) := by
  obtain ⟨hports, hpending⟩ := h
  exact ⟨hports, by simp [hpending]⟩

theorem SameSeen.resetCore {s t : State} (h : SameSeen s t) :
    SameSeen (Machine.resetCore s) (Machine.resetCore t) := by
  obtain ⟨-, hpending⟩ := h
  exact ⟨rfl, hpending⟩

theorem SameSeen.raise {s t : State} (h : SameSeen s t) (c : Cause) :
    SameSeen (Machine.raise c s) (Machine.raise c t) := by
  obtain ⟨hports, hpending⟩ := h
  exact ⟨by simp [hports], hpending⟩

theorem SameSeen.writeResult {s t : State} (h : SameSeen s t) (r : Word) :
    SameSeen (Machine.writeResult r s) (Machine.writeResult r t) := by
  obtain ⟨hports, hpending⟩ := h
  exact ⟨by simp [hports], hpending⟩

theorem SameSeen.writeRoundKeys {s t : State} (h : SameSeen s t) (k : RoundKeys) :
    SameSeen (Machine.writeRoundKeys k s) (Machine.writeRoundKeys k t) := by
  obtain ⟨hports, hpending⟩ := h
  exact ⟨by simp [hports], hpending⟩

theorem SameSeen.fault_eq {s t : State} (h : SameSeen s t) : s.fault = t.fault := congrArg OutPorts.fault h.1

theorem SameSeen.kv_eq {s t : State} (h : SameSeen s t) : s.kv = t.kv := congrArg OutPorts.kv h.1

/-- While `KV = 1` the key ports show the round keys, so states that show the same hold the same. -/
theorem SameSeen.readRoundKeys_eq {s t : State} (h : SameSeen s t) (hk : s.kv = true) :
    readRoundKeys s = readRoundKeys t := by
  have hk' : t.kv = true := h.kv_eq.symm.trans hk
  have h0 := congrArg OutPorts.rk0 h.1
  have h1 := congrArg OutPorts.rk1 h.1
  have h2 := congrArg OutPorts.rk2 h.1
  simp_all [State.ports, readRoundKeys]

/-- One command keeps two states that show the same so: it is ignored in both, takes the same fault in both, or writes
the same values. -/
theorem exec_sameSeen (i : Instr) {s s' : State} (h : SameSeen s s') :
    ∃ t t', exec i s = .next t ∧ exec i s' = .next t' ∧ SameSeen t t' := by
  cases hf : s.fault with
  | true => exact ⟨_, _, exec_of_faulted hf i, exec_of_faulted (h.fault_eq.symm.trans hf) i, h⟩
  | false =>
    have hf' : s'.fault = false := h.fault_eq.symm.trans hf
    cases hw : i.wellFormed with
    | false => exact ⟨_, _, exec_of_illFormed hf hw, exec_of_illFormed hf' hw, h.raise _⟩
    | true =>
      by_cases hk : ReadsRoundKeys i ∧ s.kv = false
      · obtain ⟨hi, hk⟩ := hk
        exact ⟨_, _, exec_of_noKey hf hi hk, exec_of_noKey hf' hi (h.kv_eq.symm.trans hk), h.raise _⟩
      · have hk : ReadsRoundKeys i → s.kv = true := fun hi => by simpa [hi] using hk
        by_cases hm : i.mnemonic = .expand
        · obtain ⟨key, rfl⟩ := eq_expand_of_mnemonic hm
          exact ⟨_, _, exec_expand_of_accepting hf key, exec_expand_of_accepting hf' key, h.writeRoundKeys _⟩
        · have hvalue := resultValue_congr fun hi => h.readRoundKeys_eq (hk hi)
          exact ⟨_, _, exec_of_result hf hm hw hk, exec_of_result hf' hm hw fun hi => h.kv_eq.symm.trans (hk hi),
            hvalue ▸ h.writeResult _⟩

theorem present_sameSeen (input : Input) {s s' : State} (h : SameSeen s s') :
    ∃ t t', present input s = .next t ∧ present input s' = .next t' ∧ SameSeen t t' := by
  cases input with
  | reset => exact ⟨_, _, rfl, rfl, h.resetCore⟩
  | idle => exact ⟨_, _, rfl, rfl, h⟩
  | cmd w =>
    rcases decode_cases w with ⟨m, -, hd⟩ | ⟨hr, -⟩
    · rw [present_of_decode hd, present_of_decode hd]
      exact exec_sameSeen _ h
    · rw [present_of_reserved hr, present_of_reserved hr]
      cases hf : s.fault with
      | true => exact ⟨_, _, accept_of_faulted hf _, accept_of_faulted (h.fault_eq.symm.trans hf) _, h⟩
      | false => exact ⟨_, _, accept_of_accepting hf _, accept_of_accepting (h.fault_eq.symm.trans hf) _, h.raise _⟩

/-- Settles O55: both steps read the same pins, and one input keeps states that show the same so. -/
theorem unwrittenRegistersNeverMatter : Obligations.UnwrittenRegistersNeverMatter := by
  intro s s' h
  have hsample : sample s = sample s' := by
    obtain ⟨-, hpending⟩ := h
    simp only [sample, hpending]
  unfold step
  rw [← hsample]
  exact present_sameSeen (sample s) h.advance

/-! ### The step and the ports (10_state.md R30, R32, R33) -/

/-- Settles O41: the pins of the step make the input of its word, which `present` executes on the advanced state. -/
theorem stepRunsDecodedCommand : Obligations.StepRunsDecodedCommand := by
  intro s p rest i hp hr hv hd
  calc step s = present (.cmd p.word) { s with pending := rest } := by
        rw [step, sample_of_cons hp, input_of_valid hr hv, advance_of_cons hp]
    _ = exec i { s with pending := rest } := present_of_decode hd _

/-- Settles O51: each flag and each port of the state at reset, as it is written there. -/
theorem resetStateShowsNoValue : Obligations.ResetStateShowsNoValue := ⟨rfl, rfl, rfl, rfl, rfl⟩

/-- Settles O58: the ports are the state elements, the registers behind their flags. -/
theorem portsShowTheirElements : Obligations.PortsShowTheirElements := by
  intro s
  refine ⟨fun h => ?_, fun h => ?_, fun h => ?_, fun h => ?_, rfl, rfl, rfl, rfl⟩ <;> simp [State.ports, h]

/-- Settles O59: the ports of each update the command can be. -/
theorem portsAfterCommand : Obligations.PortsAfterCommand := by
  intro w s t h
  cases present_case_of_next h with
  | ignored _ hf => simp [hf]
  | illegalOp _ _ hf => exact ⟨by simp [hf], fun _ _ => ⟨rfl, Cause_code_ne_zero .illegalOp⟩, by simp⟩
  | exec _ i _ hd ht =>
    cases ht with
    | ignored hf => simp [hf]
    | operandRange hf _ => exact ⟨by simp [hf], fun _ _ => ⟨rfl, Cause_code_ne_zero .operandRange⟩, by simp⟩
    | noKey hf _ _ => exact ⟨by simp [hf], fun _ _ => ⟨rfl, Cause_code_ne_zero .noKey⟩, by simp⟩
    | result hf hm _ r =>
      exact ⟨by simp [hf], by simp [hf], fun _ => ⟨i, hd, fun _ => ports_writeResult r s,
        fun key hi => absurd (by rw [hi]; rfl) hm⟩⟩
    | keys hf key hi =>
      subst hi
      refine ⟨by simp [hf], by simp [hf], fun _ => ⟨_, hd, fun hm => absurd rfl hm, ?_⟩⟩
      rintro _ ⟨⟩
      exact ports_writeRoundKeys _ s

end Sys2Proof.Machine
end

section
/-!
PROOFS. The read-only spaces and the sequences of inputs (20_memory.md). A full table read by row and column is the table
read in one row (`tableEntry_eq_flatten`); the inputs still pending neither change nor matter in one step
(`present_pending`), so a run is the composition of its inputs.
-/

namespace Sys2Proof.Machine

/-! ### The tables (20_memory.md R51, 42_sbox.md R120 to R122) -/

/-- A table of rows of one width, read by row and column, is its rows one after another. -/
theorem tableEntry_eq_flatten {t : List (List Nibble)} {width : Nat} (ht : ∀ r ∈ t, r.length = width) (row : Nat)
    {col : Nat} (hc : col < width) : tableEntry t row col = t.flatten.getD (width * row + col) 0 := by
  unfold tableEntry
  induction t generalizing row with
  | nil => simp
  | cons r t ih =>
    have hr : r.length = width := ht r List.mem_cons_self
    cases row with
    | zero =>
      rw [List.getD_cons_zero, List.flatten_cons, Nat.mul_zero, Nat.zero_add, List.getD_append _ _ _ _ (hr ▸ hc)]
    | succ row =>
      have hle : r.length ≤ width * (row + 1) + col := by rw [hr, Nat.mul_succ]; omega
      have hsub : width * (row + 1) + col - r.length = width * row + col := by rw [hr, Nat.mul_succ]; omega
      rw [List.getD_cons_succ, List.flatten_cons, List.getD_append_right _ _ _ _ hle, hsub]
      exact ih (fun r hr => ht r (List.mem_cons_of_mem _ hr)) row

/-- The row and the column of a nibble are its two base-4 digits (10_state.md R22). -/
theorem nibbleRow_nibbleCol_toNat (n : Nibble) : 4 * (nibbleRow n).toNat + (nibbleCol n).toNat = n.toNat := by
  have hn := n.isLt
  simp only [nibbleRow, nibbleCol, BitVec.extractLsb'_toNat, Nat.shiftRight_eq_div_pow]
  omega

/-- A table of rows of 4, read at a nibble's row and column, is read in one row at the nibble's value (R51). -/
theorem tableEntry_nibble {t : List (List Nibble)} (ht : ∀ r ∈ t, r.length = 4) (n : Nibble) :
    tableEntry t (nibbleRow n).toNat (nibbleCol n).toNat = t.flatten.getD n.toNat 0 := by
  rw [tableEntry_eq_flatten ht _ (nibbleCol n).isLt, nibbleRow_nibbleCol_toNat]

/-- Settles O12: `substitute` is the ROM read at the row and the column, and the tables have rows of 4. -/
theorem substituteIsTableLookup : Obligations.SubstituteIsTableLookup := by
  have hs : ∀ r ∈ sboxTable, r.length = 4 := by decide
  have hi : ∀ r ∈ isboxTable, r.length = 4 := by decide
  exact fun n => ⟨rfl, tableEntry_nibble hs n, rfl, tableEntry_nibble hi n, rfl, rfl⟩

/-! ### A run is the composition of its inputs (20_memory.md R61, 70_reset_and_hazards.md R270) -/

/-- `s` with the inputs `ps` pending, in the place of its own. -/
def State.withPending (s : State) (ps : List Pins) : State := { s with pending := ps }

/-- A command neither reads nor writes the inputs still pending. -/
theorem exec_withPending (i : Instr) (s : State) :
    ∃ t : State, ∀ ps, exec i (s.withPending ps) = .next (t.withPending ps) := by
  cases hf : s.fault with
  | true => exact ⟨s, fun ps => exec_of_faulted (s := s.withPending ps) hf i⟩
  | false =>
    cases hw : i.wellFormed with
    | false => exact ⟨raise .operandRange s, fun ps => exec_of_illFormed (s := s.withPending ps) hf hw⟩
    | true =>
      by_cases hk : ReadsRoundKeys i ∧ s.kv = false
      · obtain ⟨hi, hk⟩ := hk
        exact ⟨raise .noKey s, fun ps => exec_of_noKey (s := s.withPending ps) hf hi hk⟩
      · have hk : ReadsRoundKeys i → s.kv = true := fun hi => by simpa [hi] using hk
        by_cases hm : i.mnemonic = .expand
        · obtain ⟨key, rfl⟩ := eq_expand_of_mnemonic hm
          exact ⟨writeRoundKeys (expandKey key) s, fun ps => exec_expand_of_accepting (s := s.withPending ps) hf key⟩
        · exact ⟨writeResult (resultValue (readRoundKeys s) i) s,
            fun ps => exec_of_result (s := s.withPending ps) hf hm hw hk⟩

/-- No input reads or writes the inputs still pending. -/
theorem present_withPending (input : Input) (s : State) :
    ∃ t : State, ∀ ps, present input (s.withPending ps) = .next (t.withPending ps) := by
  cases input with
  | reset => exact ⟨resetCore s, fun _ => rfl⟩
  | idle => exact ⟨s, fun _ => rfl⟩
  | cmd w =>
    rcases decode_cases w with ⟨m, -, hd⟩ | ⟨hr, -⟩
    · simpa only [present_of_decode hd] using exec_withPending _ s
    · simp only [present_of_reserved hr]
      cases hf : s.fault with
      | true => exact ⟨s, fun ps => accept_of_faulted (s := s.withPending ps) hf _⟩
      | false => exact ⟨raise .illegalOp s, fun ps => accept_of_accepting (s := s.withPending ps) hf _⟩

theorem presentAll_cons_of_next {input : Input} {s t : State} (h : present input s = .next t) (rest : List Input) :
    presentAll (input :: rest) s = presentAll rest t := by simp [presentAll, h]

theorem run_succ_of_next {s t : State} (h : step s = .next t) (k : Nat) :
    Host.Core.run core (k + 1) s = Host.Core.run core k t := by
  have h : core.step s = .next t := h
  simp [Host.Core.run, h]

/-- With pins pending, the step presents the oldest and leaves the rest pending (R270). -/
theorem step_withPending_cons (s : State) (p : Pins) (ps : List Pins) :
    step (s.withPending (p :: ps)) = present p.input (s.withPending ps) := rfl

/-- The run of a state with the pins `ps` pending, by induction on them: each step presents the oldest. -/
theorem run_withPending (ps : List Pins) (s : State) :
    Host.Core.run core ps.length (s.withPending ps) = presentAll (ps.map Pins.input) (s.withPending []) := by
  induction ps generalizing s with
  | nil => rfl
  | cons p ps ih =>
    obtain ⟨t, ht⟩ := present_withPending p.input s
    have hstep : step (s.withPending (p :: ps)) = .next (t.withPending ps) :=
      (step_withPending_cons s p ps).trans (ht ps)
    rw [List.length_cons, run_succ_of_next hstep, ih t, List.map_cons, presentAll_cons_of_next (ht [])]

/-- Settles O42: the run of a state with its own pins pending. -/
theorem runIsCompositionOfInputs : Obligations.RunIsCompositionOfInputs := fun s => run_withPending s.pending s

end Sys2Proof.Machine
end

section
/-!
PROOFS. The encoding and the pseudo-commands (30_encoding.md). A word is its three fields and a command its mnemonic and
operands, so decoding and encoding undo each other field by field; an opcode is a mnemonic's or reserved
(`opcode_cases`), so what a word does is one of the equations of the step function.
-/

namespace Sys2Proof.Machine

/-! ### The fields of an encoded command (30_encoding.md R71, R81) -/

@[simp] theorem opField_encode (i : Instr) : opField (encode i) = i.mnemonic.opcode := opField_cmdWord _ _ _

@[simp] theorem aField_encode (i : Instr) : aField (encode i) = i.operandA := aField_cmdWord _ _ _

@[simp] theorem bField_encode (i : Instr) : bField (encode i) = i.operandB := bField_cmdWord _ _ _

@[simp] theorem decode_encode (i : Instr) : decode (encode i) = .ok i :=
  calc decode (encode i) = .ok (i.mnemonic.instr i.operandA i.operandB) := decode_cmdWord _ _ _
    _ = .ok i := by rw [instr_eta]

/-- Settles O35: a word written from a mnemonic and operands decodes to their command, and every command is one. -/
theorem decodeEncodeIsIdentity : Obligations.DecodeEncodeIsIdentity := decode_encode

/-- Settles O34: each word is a mnemonic's opcode and two operand fields, and the last has a reserved opcode. -/
theorem specWordsDecode : Obligations.SpecWordsDecode :=
  ⟨decode_cmdWord .nib 0x1234 0x0002, decode_cmdWord .sbox 0x0006 0x0000, decode_cmdWord .gfmul 0x0006 0x000B,
    decode_cmdWord .ark 0x1234 0x4AF5, decode_cmdWord .expand 0x4AF5 0x0000, decode_cmdWord .enc 0xD728 0x0000,
    decode_cmdWord .lob 0xFFFF 0x1234, rfl⟩

/-! ### The opcode map (30_encoding.md R74, R78) -/

theorem mnemonicOf_eq_some {op : Opcode} {m : Mnemonic} : mnemonicOf op = some m ↔ op = m.opcode :=
  ⟨fun h => (opcode_of_mnemonicOf h).symm, fun h => h ▸ mnemonicOf_opcode m⟩

/-- An opcode is a mnemonic's or reserved. -/
theorem opcode_cases (op : Opcode) : (∃ m : Mnemonic, op = m.opcode) ∨ op ∈ reservedOpcodes := by
  cases h : mnemonicOf op with
  | some m => exact .inl ⟨m, mnemonicOf_eq_some.1 h⟩
  | none => exact .inr ((mnemonicOf_eq_none op).1 h)

theorem opcode_not_reserved (m : Mnemonic) : m.opcode ∉ reservedOpcodes := by
  rw [← mnemonicOf_eq_none, mnemonicOf_opcode]
  exact Option.some_ne_none m

/-- A decoded command is the word's mnemonic on the word's operand fields. -/
theorem eq_instr_of_decode {w : CmdWord} {i : Instr} (h : decode w = .ok i) :
    ∃ m : Mnemonic, opField w = m.opcode ∧ i = m.instr (aField w) (bField w) := by
  rcases decode_cases w with ⟨m, hm, hd⟩ | ⟨-, hd⟩
  · exact ⟨m, mnemonicOf_eq_some.1 hm, by simpa [hd] using h.symm⟩
  · simp [hd] at h

theorem exists_decode_iff (w : CmdWord) : (∃ i, decode w = .ok i) ↔ opField w ∉ reservedOpcodes := by
  constructor
  · rintro ⟨i, hd⟩
    obtain ⟨m, hop, -⟩ := eq_instr_of_decode hd
    exact hop ▸ opcode_not_reserved m
  · intro hr
    exact (decode_cases w).elim (fun ⟨_, _, hd⟩ => ⟨_, hd⟩) fun ⟨hr', _⟩ => absurd hr' hr

/-! ### The operand `b` (30_encoding.md R77) -/

/-- The opcodes of the formats that use `b`: NIB, GFMUL and ARK. -/
theorem usesB_iff_opcode (m : Mnemonic) :
    formatUsesB m.format = true ↔ m.opcode ∈ ([0x01, 0x0C, 0x10] : List Opcode) := by cases m <;> decide

theorem usesB_iff_mnemonic (m : Mnemonic) :
    formatUsesB m.format = true ↔ m ∈ ([.nib, .gfmul, .ark] : List Mnemonic) := by cases m <;> decide

/-- A mnemonic that does not use `b` makes one command of any two values of it. -/
theorem instr_congr_b {m : Mnemonic} (h : ¬ formatUsesB m.format = true) (a b b' : Word) :
    m.instr a b = m.instr a b' := by
  cases m with
  | nib | gfmul | ark => exact absurd rfl h
  | _ => rfl

theorem operandB_of_usesB {m : Mnemonic} (h : formatUsesB m.format = true) (a b : Word) :
    (m.instr a b).operandB = b := by rw [instr_operandB, if_pos h]

theorem operandB_of_not_usesB {i : Instr} (h : ¬ formatUsesB i.mnemonic.format = true) : i.operandB = 0 := by
  rw [← instr_eta i, instr_operandB, if_neg h]

/-- Settles O36: the fields of the encoding are the decoded mnemonic's opcode and operands, whose `b` is the
word's or 0. -/
theorem encodeDecodeIsCanonical : Obligations.EncodeDecodeIsCanonical := by
  intro w i hd
  obtain ⟨m, hop, rfl⟩ := eq_instr_of_decode hd
  rw [hop, ← usesB_iff_opcode]
  refine ⟨by simp, by simp, fun hb => ?_, fun hb => ?_, decode_encode _⟩
  · rw [bField_encode, operandB_of_usesB hb]
  · rw [bField_encode, operandB_of_not_usesB (by simpa using hb)]

/-- Settles O37: a reserved word takes the fault whatever its fields, and any other decodes to one command for
both `b`. -/
theorem unusedOperandIsIgnored : Obligations.UnusedOperandIsIgnored := by
  refine ⟨fun op a b b' s hop => ?_, fun i hi => ?_⟩
  · rcases opcode_cases op with ⟨m, rfl⟩ | hr
    · rw [← usesB_iff_opcode] at hop
      rw [present_of_decode (decode_cmdWord m a b), present_of_decode (decode_cmdWord m a b'), instr_congr_b hop a b b']
    · rw [present_of_reserved (by simpa using hr), present_of_reserved (by simpa using hr)]
  · rw [← usesB_iff_mnemonic] at hi
    rw [bField_encode, operandB_of_not_usesB hi]

/-! ### The faults of a word (30_encoding.md R76, R78, R79) -/

/-- A reserved word takes ILLEGAL_OP and changes nothing else (60_exceptions.md R231, R236). -/
theorem present_reserved_of_accepting {w : CmdWord} (hr : opField w ∈ reservedOpcodes) {s : State}
    (hs : s.Accepting) :
    present (.cmd w) s = .next { s with fault := true, fcode := 1 } :=
  (present_of_reserved hr s).trans (accept_of_accepting hs _)

/-- The word of an ill-formed command takes OPERAND_RANGE and changes nothing else (60_exceptions.md R232, R236). -/
theorem present_illFormed_of_accepting {w : CmdWord} {i : Instr} (hd : decode w = .ok i) (hw : i.wellFormed = false)
    {s : State} (hs : s.Accepting) : present (.cmd w) s = .next { s with fault := true, fcode := 2 } :=
  (present_of_decode hd s).trans (exec_of_illFormed hs hw)

/-- Settles O38: the listed opcodes are the model's reserved ones, which name no mnemonic. -/
theorem reservedOpcodesAreIllegal : Obligations.ReservedOpcodesAreIllegal :=
  ⟨exists_decode_iff, fun op a b _ hs hr =>
    present_reserved_of_accepting ((opField_cmdWord op a b).symm ▸ hr) hs⟩

/-- Masking a word masks its fields. -/
theorem cmdWord_and (op op' : Opcode) (a a' b b' : Word) :
    cmdWord op a b &&& cmdWord op' a' b' = cmdWord (op &&& op') (a &&& a') (b &&& b') :=
  calc cmdWord op a b &&& cmdWord op' a' b' = ((op ++ a) &&& (op' ++ a')) ++ (b &&& b') := BitVec.and_append
    _ = cmdWord (op &&& op') (a &&& a') (b &&& b') := by rw [BitVec.and_append]; rfl

/-- The mask of R74 keeps the opcode field alone. -/
theorem opcodeMask_and (w : CmdWord) : w &&& 0x1F00000000 = cmdWord (opField w) 0 0 :=
  calc w &&& 0x1F00000000
      = cmdWord (opField w) (aField w) (bField w) &&& cmdWord (BitVec.allOnes 5) 0 0 := by rw [cmdWord_fields]; rfl
    _ = cmdWord (opField w) 0 0 := by
        simp only [cmdWord_and, BitVec.and_allOnes, BitVec.ofNat_eq_ofNat, BitVec.and_zero]

theorem matchWord_eq_cmdWord (m : Mnemonic) : m.matchWord = cmdWord m.opcode 0 0 := by cases m <;> rfl

/-- The rows of the table select words by their opcode (R74). -/
theorem opcodeMask_and_eq_matchWord_iff (w : CmdWord) (m : Mnemonic) :
    w &&& 0x1F00000000 = m.matchWord ↔ opField w = m.opcode := by
  rw [opcodeMask_and, matchWord_eq_cmdWord]
  exact ⟨fun h => by simpa using congrArg opField h, fun h => by rw [h]⟩

/-- Settles O39: a word decodes or is reserved, and a decoded command is well formed or takes the range fault. -/
theorem everyWordHasOneOutcome : Obligations.EveryWordHasOneOutcome := by
  refine ⟨fun w => ?_, fun w m => (opcodeMask_and_eq_matchWord_iff w m).trans mnemonicOf_eq_some.symm⟩
  rcases decode_cases w with ⟨m, -, hd⟩ | ⟨hr, -⟩
  · cases hw : (m.instr (aField w) (bField w)).wellFormed with
    | true => exact .inl ⟨_, hd, hw⟩
    | false => exact .inr (.inl ⟨_, hd, hw, fun s hs => present_illFormed_of_accepting hd hw hs⟩)
  · exact .inr (.inr ⟨hr, fun s hs => present_reserved_of_accepting hr hs⟩)

/-! ### Operands out of range (30_encoding.md R76) -/

/-- The opcodes of the eight commands with a restricted operand. -/
def restrictedOpcodes : List Opcode := [0x01, 0x04, 0x05, 0x08, 0x09, 0x0C, 0x14, 0x19]

theorem mem_of_operandOutOfRange {op : Opcode} {a b : Word} (h : OperandOutOfRange op a b) :
    op ∈ restrictedOpcodes := by
  rcases h with ⟨rfl, -⟩ | ⟨h, -⟩ | ⟨rfl, -⟩ | ⟨h, -⟩
  · decide
  · revert op; decide
  · decide
  · revert op; decide

theorem restricted_not_reserved : ∀ op ∈ restrictedOpcodes, op ∉ reservedOpcodes := by decide

/-- The eleven commands of full words are commands, and have no restricted operand. -/
theorem fullWord_not_reserved_or_restricted :
    ∀ op ∈ ([0x02, 0x03, 0x0A, 0x0B, 0x10, 0x11, 0x12, 0x13, 0x18, 0x1C, 0x1D] : List Opcode),
      op ∉ reservedOpcodes ∧ op ∉ restrictedOpcodes := by decide

theorem fcode_eq_zero_of_accepting {s : State} (hs : s.Accepting) (hc : s.FaultCodeAgrees) : s.fcode = 0 := by
  simpa [State.FaultCodeAgrees, hs] using hc

/-- A well-formed command never takes OPERAND_RANGE. -/
theorem exec_fcode_ne_two {i : Instr} (hw : i.wellFormed = true) {s : State} (hs : s.Accepting)
    (hc : s.FaultCodeAgrees) : ∃ t, exec i s = .next t ∧ t.fcode ≠ 2 := by
  have h0 : s.fcode ≠ 2 := by simp [fcode_eq_zero_of_accepting hs hc]
  obtain ⟨t, ht, hcase⟩ := exec_cases i s
  refine ⟨t, ht, ?_⟩
  cases hcase with
  | ignored _ | result _ _ _ _ | keys _ _ _ => exact h0
  | operandRange _ hw' => simp [hw] at hw'
  | noKey _ _ _ => simp [Cause.code]

/-- A command whose operands are in range never takes OPERAND_RANGE. -/
theorem present_inRange_fcode_ne_two {op : Opcode} {a b : Word} (hnr : op ∉ reservedOpcodes)
    (hin : ¬ OperandOutOfRange op a b) {s : State} (hs : s.Accepting) (hc : s.FaultCodeAgrees) :
    ∃ t, present (.cmd (cmdWord op a b)) s = .next t ∧ t.fcode ≠ 2 := by
  obtain ⟨m, rfl⟩ := (opcode_cases op).resolve_right hnr
  rw [operandOutOfRange_opcode_iff, Bool.not_eq_false] at hin
  rw [present_of_decode (decode_cmdWord m a b)]
  exact exec_fcode_ne_two hin hs hc

/-- Settles O44: an operand out of range makes the command ill formed, and a command of full words has none. -/
theorem operandOutOfRangeFaults : Obligations.OperandOutOfRangeFaults := by
  intro op a b s hs hc
  refine ⟨fun hout => ?_, fun hop => ?_, fun hnr hin => present_inRange_fcode_ne_two hnr hin hs hc⟩
  · have hnr := restricted_not_reserved op (mem_of_operandOutOfRange hout)
    obtain ⟨m, rfl⟩ := (opcode_cases op).resolve_right hnr
    exact present_illFormed_of_accepting (decode_cmdWord m a b) ((operandOutOfRange_opcode_iff m a b).1 hout) hs
  · obtain ⟨hnr, hfull⟩ := fullWord_not_reserved_or_restricted op hop
    exact present_inRange_fcode_ne_two hnr (fun hout => hfull (mem_of_operandOutOfRange hout)) hs hc

/-! ### The pseudo-commands (30_encoding.md R82) -/

theorem present_encode (i : Instr) (s : State) : present (.cmd (encode i)) s = exec i s :=
  present_of_decode (decode_encode i) s

@[simp] theorem pinsOfInstr_input (i : Instr) : (pinsOfInstr i).input = .cmd (encode i) := pinsOfWord_input _

/-- `EXPAND` followed by `ENC` or `DEC`: the second finds the keys of the first. -/
theorem presentAll_expand_keyed {i : Instr} (hi : ReadsRoundKeys i) (key : Word) {s : State} (hs : s.Accepting) :
    presentAll [.cmd (encode (.expand key)), .cmd (encode i)] s =
      .next (writeResult (resultValue (expandKey key) i) (writeRoundKeys (expandKey key) s)) := by
  have hm : i.mnemonic ≠ .expand := by rcases hi with h | h <;> simp [h]
  have hfirst : present (.cmd (encode (.expand key))) s = .next (writeRoundKeys (expandKey key) s) :=
    (present_encode _ s).trans (exec_expand_of_accepting hs key)
  have hsecond : present (.cmd (encode i)) (writeRoundKeys (expandKey key) s) =
      .next (writeResult (resultValue (expandKey key) i) (writeRoundKeys (expandKey key) s)) :=
    (present_encode i _).trans (exec_of_result hs hm (wellFormed_of_readsRoundKeys hi) fun _ => rfl)
  rw [presentAll_cons_of_next hfirst, presentAll_cons_of_next hsecond, presentAll]

/-- What `ENCRYPT` and `DECRYPT` do: the result is the cipher's under the expanded key, and Y stays after `EXPAND`. -/
theorem expand_keyed_spec {i : Instr} (hi : ReadsRoundKeys i) (key : Word) {s : State} (hs : s.Accepting) :
    ∃ t, presentAll ([pinsOfInstr (.expand key), pinsOfInstr i].map Pins.input) s = .next t ∧
      presentAll [.cmd (encode (.expand key)), .cmd (encode i)] s = .next t ∧
      t.y = resultValue (expandKey key) i ∧ t.yv = true ∧ t.fault = false ∧
      ∃ u, present (.cmd (encode (.expand key))) s = .next u ∧ u.y = s.y :=
  have hrun := presentAll_expand_keyed hi key hs
  ⟨_, by simpa using hrun, hrun, rfl, rfl, hs, _,
    (present_encode _ s).trans (exec_expand_of_accepting hs key), rfl⟩

/-- Settles O40: ENCRYPT and DECRYPT by `expand_keyed_spec`, the others by the three ranges of `inv`. -/
theorem pseudoCommandsExpand : Obligations.PseudoCommandsExpand := by
  refine ⟨fun key block s hs => ?_, fun key block s hs => ?_, fun n inv => ⟨?_, ?_, fun hinv => ?_⟩, rfl⟩
  · obtain ⟨t, h⟩ := expand_keyed_spec (i := .enc block) (.inl rfl) key hs
    exact ⟨_, t, rfl, h⟩
  · obtain ⟨t, h⟩ := expand_keyed_spec (i := .dec block) (.inr rfl) key hs
    exact ⟨_, t, rfl, h⟩
  · rintro rfl
    simp [expandPseudo]
  · rintro rfl
    simp [expandPseudo]
  · have h0 : inv ≠ 0 := by bv_omega
    have h1 : inv ≠ 1 := by bv_omega
    exact ⟨(if_neg h0).trans (if_neg h1), (if_neg h0).trans (if_neg h1)⟩

end Sys2Proof.Machine
end

section
/-!
PROOFS. The NibbleOps family (41_nibbleops.md). Neighbouring bit ranges of a word append to one range, so the slots and
the bytes rebuild the word and the row and the column the nibble; what a command of the family does is its result in a
completing step (`exec_of_operandResult`) or OPERAND_RANGE in a faulting one (`exec_of_illFormed`).
-/

namespace Sys2Proof.Machine

/-! ### Slots, bytes, rows and columns (41_nibbleops.md R100, R101, R107) -/

/-- The bit position of a slot's low end: the shift amounts of R100. -/
def slotShift (i : Fin 4) : Nat := [12, 4, 8, 0].getD i.val 0

theorem nibble_eq_extract (w : Word) (i : Fin 4) : nibble w i = w.extractLsb' (slotShift i) 4 := by
  match i with
  | 0 | 1 | 2 | 3 => rfl

/-- A bit range is the low bits of the word shifted down to it. -/
theorem extract_eq_shift_extract (w : Word) (start len : Nat) :
    w.extractLsb' start len = (w >>> start).extractLsb' 0 len := rfl

@[simp] theorem nibble_zero_pack4 (n0 n1 n2 n3 : Nibble) : nibble (pack4 n0 n1 n2 n3) 0 = n0 :=
  calc (n0 ++ n2 ++ n1 ++ n3).extractLsb' 12 4
      = (n0 ++ n2 ++ n1).extractLsb' 8 4 := BitVec.extractLsb'_append_eq_of_le (by decide)
    _ = (n0 ++ n2).extractLsb' 4 4 := BitVec.extractLsb'_append_eq_of_le (by decide)
    _ = n0 := BitVec.extractLsb'_append_eq_left

@[simp] theorem nibble_one_pack4 (n0 n1 n2 n3 : Nibble) : nibble (pack4 n0 n1 n2 n3) 1 = n1 :=
  calc (n0 ++ n2 ++ n1 ++ n3).extractLsb' 4 4
      = (n0 ++ n2 ++ n1).extractLsb' 0 4 := BitVec.extractLsb'_append_eq_of_le (by decide)
    _ = n1 := BitVec.extractLsb'_append_eq_right

@[simp] theorem nibble_two_pack4 (n0 n1 n2 n3 : Nibble) : nibble (pack4 n0 n1 n2 n3) 2 = n2 :=
  calc (n0 ++ n2 ++ n1 ++ n3).extractLsb' 8 4
      = (n0 ++ n2 ++ n1).extractLsb' 4 4 := BitVec.extractLsb'_append_eq_of_le (by decide)
    _ = (n0 ++ n2).extractLsb' 0 4 := BitVec.extractLsb'_append_eq_of_le (by decide)
    _ = n2 := BitVec.extractLsb'_append_eq_right

@[simp] theorem nibble_three_pack4 (n0 n1 n2 n3 : Nibble) : nibble (pack4 n0 n1 n2 n3) 3 = n3 :=
  BitVec.extractLsb'_append_eq_right

theorem nibble_append_eq_highByte (w : Word) : nibble w 0 ++ nibble w 2 = highByte w :=
  BitVec.extractLsb'_append_extractLsb'_eq_extractLsb' rfl

theorem nibble_append_eq_lowByte (w : Word) : nibble w 1 ++ nibble w 3 = lowByte w :=
  BitVec.extractLsb'_append_extractLsb'_eq_extractLsb' rfl

/-- The first round key of the schedule is the two bytes of the key. -/
@[simp] theorem highByte_append_lowByte (w : Word) : highByte w ++ lowByte w = w := expandKey_k0 w

@[simp] theorem pack4_nibble (w : Word) : pack4 (nibble w 0) (nibble w 1) (nibble w 2) (nibble w 3) = w :=
  calc nibble w 0 ++ nibble w 2 ++ nibble w 1 ++ nibble w 3
      = highByte w ++ nibble w 1 ++ nibble w 3 := by rw [nibble_append_eq_highByte]
    _ = w.extractLsb' 4 12 ++ nibble w 3 :=
        congrArg (· ++ nibble w 3) (BitVec.extractLsb'_append_extractLsb'_eq_extractLsb' rfl)
    _ = w.extractLsb' 0 16 := BitVec.extractLsb'_append_extractLsb'_eq_extractLsb' rfl
    _ = w := BitVec.extractLsb'_eq_self

@[simp] theorem nibbleRow_append_nibbleCol (n : Nibble) : nibbleRow n ++ nibbleCol n = n :=
  calc nibbleRow n ++ nibbleCol n = n.extractLsb' 0 4 := BitVec.extractLsb'_append_extractLsb'_eq_extractLsb' rfl
    _ = n := BitVec.extractLsb'_eq_self

/-- The row of a nibble operand, read from the operand field. -/
theorem nibbleRow_nibbleOf (a : Word) : nibbleRow (nibbleOf a) = a.extractLsb' 2 2 :=
  BitVec.extractLsb'_extractLsb'_of_le (by decide)

/-- The column of a nibble operand, read from the operand field. -/
theorem nibbleCol_nibbleOf (a : Word) : nibbleCol (nibbleOf a) = a.extractLsb' 0 2 :=
  BitVec.extractLsb'_extractLsb'_of_le (by decide)

/-- Settles O6: extraction from an appended word picks the slot, and the four ranges of a word append to it. -/
theorem nibbleAndPackAreInverse : Obligations.NibbleAndPackAreInverse :=
  ⟨fun _ => ⟨rfl, rfl, rfl, rfl⟩,
    fun w i => (nibble_eq_extract w i).trans (extract_eq_shift_extract w (slotShift i) 4),
    fun n0 n1 n2 n3 => ⟨rfl, nibble_zero_pack4 n0 n1 n2 n3, nibble_one_pack4 n0 n1 n2 n3,
      nibble_two_pack4 n0 n1 n2 n3, nibble_three_pack4 n0 n1 n2 n3⟩,
    pack4_nibble⟩

/-! ### The commands (41_nibbleops.md R102 to R107) -/

/-- The commands whose result is a function of their operands alone: all but `EXPAND`, which writes no result, and `ENC`
and `DEC`, which read the stored round keys (10_state.md R24, R34). -/
abbrev ResultOfOperands (m : Mnemonic) : Prop := m ∉ ([.expand, .enc, .dec] : List Mnemonic)

/-- Such a command, well formed, writes its result and changes nothing else. -/
theorem exec_of_operandResult {i : Instr} (hi : ResultOfOperands i.mnemonic) (hw : i.wellFormed = true) {s : State}
    (hs : s.Accepting) {r : Word} (hr : resultValue (readRoundKeys s) i = r) :
    exec i s = .next { s with y := r, yv := true } := by
  have hm : i.mnemonic ≠ .expand := fun h => hi (by simp [h])
  have hk : ¬ ReadsRoundKeys i := by rintro (h | h) <;> exact hi (by simp [h])
  exact hr ▸ exec_of_result hs hm hw (absurd · hk)

/-- Settles O1: a legal index names the slot of its own value, any other takes the range fault. -/
theorem nibExtractsSlot : Obligations.NibExtractsSlot := by
  intro a b s hs
  have hnib : ∀ b, slotLegal b = true →
      exec (.nib a b) s = .next { s with y := zext16 (nibble a (slotOf b)), yv := true } := fun b hb =>
    exec_of_operandResult (i := .nib a b) (show ResultOfOperands .nib by decide) hb hs rfl
  refine ⟨decode_cmdWord .nib a b, ?_, ?_, ?_, ?_, fun hb => exec_of_illFormed hs (slotLegal_of_lt hb)⟩
  · rintro rfl; exact hnib 0 rfl
  · rintro rfl; exact hnib 1 rfl
  · rintro rfl; exact hnib 2 rfl
  · rintro rfl; exact hnib 3 rfl

/-- Settles O2: every operand is legal and the result is its low byte. -/
theorem lobExtractsLowByte : Obligations.LobExtractsLowByte := fun a b _ hs =>
  ⟨decode_cmdWord .lob a b, exec_of_operandResult (i := .lob a) (show ResultOfOperands .lob by decide) rfl hs rfl⟩

/-- Settles O3: every operand is legal and the result is its high byte. -/
theorem hibExtractsHighByte : Obligations.HibExtractsHighByte := fun a b _ hs =>
  ⟨decode_cmdWord .hib a b, exec_of_operandResult (i := .hib a) (show ResultOfOperands .hib by decide) rfl hs rfl⟩

/-- Settles O4: the row of a legal nibble is bits 3:2 of the field, and a field above 0xF takes the range fault. -/
theorem hi2ExtractsRowBits : Obligations.Hi2ExtractsRowBits := fun a b _ hs =>
  ⟨decode_cmdWord .hi2 a b,
    fun ha => exec_of_operandResult (i := .hi2 a) (show ResultOfOperands .hi2 by decide) (nibbleLegal_of_le ha) hs
      (congrArg zext16 (nibbleRow_nibbleOf a)),
    fun ha => exec_of_illFormed hs (nibbleLegal_of_lt ha)⟩

/-- Settles O5: the column of a legal nibble is bits 1:0 of the field, and a field above 0xF takes the range fault. -/
theorem lo2ExtractsColumnBits : Obligations.Lo2ExtractsColumnBits := fun a b _ hs =>
  ⟨decode_cmdWord .lo2 a b,
    fun ha => exec_of_operandResult (i := .lo2 a) (show ResultOfOperands .lo2 by decide) (nibbleLegal_of_le ha) hs
      (congrArg zext16 (nibbleCol_nibbleOf a)),
    fun ha => exec_of_illFormed hs (nibbleLegal_of_lt ha)⟩

/-- Settles O7: the ranges append to their word, and a legal command of the family only writes its result. -/
theorem nibbleOpsRebuildTheirOperand : Obligations.NibbleOpsRebuildTheirOperand := by
  refine ⟨fun w => ⟨(pack4_nibble w).symm, (highByte_append_lowByte w).symm,
      (nibble_append_eq_highByte w).symm, (nibble_append_eq_lowByte w).symm⟩,
    fun n => ⟨(nibbleRow_append_nibbleCol n).symm, (nibbleRow_nibbleCol_toNat n).symm⟩, fun i s hi hw hs => ?_⟩
  have hfamily : ∀ m ∈ ([.nib, .lob, .hib, .hi2, .lo2] : List Mnemonic), ResultOfOperands m := by decide
  exact ⟨_, exec_of_operandResult (hfamily _ hi) hw hs rfl, hs⟩

end Sys2Proof.Machine
end

section
/-!
PROOFS. The Substitution Box family (42_sbox.md). The tables undo each other nibble by nibble, and `SubNibbles` acts on
each slot by itself (`nibble_subNibbles`), so what holds of the tables on nibbles holds of `SubNibbles` on words. The
table an operand field reads is the ROM's table in one row, each entry zero-extended.
-/

namespace Sys2Proof.Machine

/-! ### SubNibbles slot by slot (42_sbox.md R125) -/

@[simp] theorem nibble_subNibbles (w : Word) (inverse : Bool) (i : Fin 4) :
    nibble (subNibbles w inverse) i = substitute (nibble w i) inverse := by
  match i with
  | 0 => exact nibble_zero_pack4 _ _ _ _
  | 1 => exact nibble_one_pack4 _ _ _ _
  | 2 => exact nibble_two_pack4 _ _ _ _
  | 3 => exact nibble_three_pack4 _ _ _ _

/-- The slots of the result in the order of their bit positions: the second form of R125. -/
theorem subNibbles_eq_append (w : Word) (inverse : Bool) :
    subNibbles w inverse = substitute (w.extractLsb' 12 4) inverse ++ substitute (w.extractLsb' 8 4) inverse ++
      substitute (w.extractLsb' 4 4) inverse ++ substitute (w.extractLsb' 0 4) inverse := rfl

/-- Settles O13: the definition in its two forms, and the slots of a word assembled from slots. -/
theorem subNibblesNeverReorders : Obligations.SubNibblesNeverReorders := fun w inverse =>
  ⟨rfl, subNibbles_eq_append w inverse, nibble_subNibbles w inverse⟩

/-! ### The tables invert each other (42_sbox.md R128) -/

theorem substitute_leftInverse : Function.LeftInverse (substitute · true) (substitute · false) := by
  unfold Function.LeftInverse; decide

theorem substitute_rightInverse : Function.RightInverse (substitute · true) (substitute · false) := by
  unfold Function.RightInverse Function.LeftInverse; decide

/-- A direction that undoes the other on every nibble undoes it on every word. -/
theorem subNibbles_cancel {first second : Bool} (h : Function.LeftInverse (substitute · second) (substitute · first))
    (w : Word) : subNibbles (subNibbles w first) second = w := by
  have hslot (i : Fin 4) : substitute (nibble (subNibbles w first) i) second = nibble w i := by
    rw [nibble_subNibbles]
    exact h (nibble w i)
  rw [subNibbles, hslot, hslot, hslot, hslot, pack4_nibble]

/-- Settles O14: the tables undo each other nibble by nibble, which makes the forward one a bijection. -/
theorem substitutionTablesInvertEachOther : Obligations.SubstitutionTablesInvertEachOther :=
  ⟨fun n => ⟨substitute_leftInverse n, substitute_rightInverse n⟩,
    fun w => ⟨subNibbles_cancel substitute_leftInverse w, subNibbles_cancel substitute_rightInverse w⟩,
    fun _ _ h => substitute_leftInverse.injective h, substitute_rightInverse.surjective, by decide, by decide⟩

/-! ### The commands (42_sbox.md R123, R124, R126, R127) -/

/-- The word a legal nibble operand reads from a table of rows of 4: the zero-extended entry at the field's value. -/
theorem zext16_tableEntry_nibbleOf {t : List (List Nibble)} (ht : ∀ r ∈ t, r.length = 4) {a : Word} (ha : a ≤ 0xF) :
    zext16 (tableEntry t (nibbleRow (nibbleOf a)).toNat (nibbleCol (nibbleOf a)).toNat) =
      (t.flatten.map zext16).getD a.toNat 0 := by
  rw [tableEntry_nibble ht, nibbleOf_toNat (nibbleLegal_of_le ha)]
  exact (List.getD_map _ 0 zext16).symm

/-- Settles O8: a legal nibble reads the forward table, and a field above 0xF takes the range fault. -/
theorem sboxReadsForwardTable : Obligations.SboxReadsForwardTable := fun a b _ hs =>
  have ht : ∀ r ∈ sboxTable, r.length = 4 := by decide
  ⟨decode_cmdWord .sbox a b,
    fun ha => exec_of_operandResult (i := .sbox a) (show ResultOfOperands .sbox by decide) (nibbleLegal_of_le ha) hs
      (zext16_tableEntry_nibbleOf ht ha),
    fun ha => exec_of_illFormed hs (nibbleLegal_of_lt ha)⟩

/-- Settles O9: a legal nibble reads the inverse table, and a field above 0xF takes the range fault. -/
theorem isboxReadsInverseTable : Obligations.IsboxReadsInverseTable := fun a b _ hs =>
  have ht : ∀ r ∈ isboxTable, r.length = 4 := by decide
  ⟨decode_cmdWord .isbox a b,
    fun ha => exec_of_operandResult (i := .isbox a) (show ResultOfOperands .isbox by decide) (nibbleLegal_of_le ha) hs
      (zext16_tableEntry_nibbleOf ht ha),
    fun ha => exec_of_illFormed hs (nibbleLegal_of_lt ha)⟩

/-- Settles O10: every operand is legal and the result is its forward `SubNibbles`, read in bit ranges. -/
theorem subnibSubstitutesEachNibble : Obligations.SubnibSubstitutesEachNibble := fun a b _ hs =>
  ⟨decode_cmdWord .subnib a b,
    exec_of_operandResult (i := .subnib a) (show ResultOfOperands .subnib by decide) rfl hs
      (subNibbles_eq_append a false)⟩

/-- Settles O11: every operand is legal and the result is its inverse `SubNibbles`, read in bit ranges. -/
theorem isubnibSubstitutesEachNibble : Obligations.IsubnibSubstitutesEachNibble := fun a b _ hs =>
  ⟨decode_cmdWord .isubnib a b,
    exec_of_operandResult (i := .isubnib a) (show ResultOfOperands .isubnib by decide) rfl hs
      (subNibbles_eq_append a true)⟩

end Sys2Proof.Machine
end

section
/-!
PROOFS. The GF16 Arithmetic family (43_gf16.md). The product is the xor of the left factor times the powers of x that
the bits of the right factor select (`gfmul_eq_sum_powers`): it distributes over xor, and is associative because it is so
for the right factor x. Inverses then are unique and zero divisors absent as in any field. The command's ROM read is this
product.
-/

namespace Sys2Proof.Machine

/-! ### The laws of the product (43_gf16.md R140, R141, R143) -/

theorem gfmul_comm (a b : Nibble) : gfmul a b = gfmul b a := by
  revert a b; decide

@[simp] theorem gfmul_zero (a : Nibble) : gfmul a 0 = 0 := by
  revert a; decide

@[simp] theorem zero_gfmul (a : Nibble) : gfmul 0 a = 0 := (gfmul_comm 0 a).trans (gfmul_zero a)

@[simp] theorem gfmul_one (a : Nibble) : gfmul a 1 = a := by
  revert a; decide

@[simp] theorem one_gfmul (a : Nibble) : gfmul 1 a = a := (gfmul_comm 1 a).trans (gfmul_one a)

/-- The nibble 2 is the polynomial x, so the bits of `b` select the powers of x that multiply `a` (R140). -/
theorem gfmul_eq_sum_powers (a b : Nibble) :
    gfmul a b = cond b[0] a 0 ^^^ cond b[1] (gfmul a 2) 0 ^^^ cond b[2] (gfmul (gfmul a 2) 2) 0 ^^^
      cond b[3] (gfmul (gfmul (gfmul a 2) 2) 2) 0 := by
  revert a b; decide

theorem cond_xor (p q : Bool) (n : Nibble) : cond (p ^^ q) n 0 = cond p n 0 ^^^ cond q n 0 := by
  cases p <;> cases q <;> simp

theorem gfmul_cond (a : Nibble) (p : Bool) (n : Nibble) : gfmul a (cond p n 0) = cond p (gfmul a n) 0 := by
  cases p with
  | false => exact gfmul_zero a
  | true => rfl

theorem gfmul_xor (a b c : Nibble) : gfmul a (b ^^^ c) = gfmul a b ^^^ gfmul a c := by
  rw [gfmul_eq_sum_powers a (b ^^^ c), gfmul_eq_sum_powers a b, gfmul_eq_sum_powers a c]
  simp only [BitVec.getElem_xor, cond_xor]
  ac_rfl

theorem xor_gfmul (a b c : Nibble) : gfmul (a ^^^ b) c = gfmul a c ^^^ gfmul b c := by
  rw [gfmul_comm, gfmul_xor, gfmul_comm c a, gfmul_comm c b]

theorem gfmul_gfmul_two (a b : Nibble) : gfmul a (gfmul b 2) = gfmul (gfmul a b) 2 := by
  revert a b; decide

/-- Both sides are the sum of `a` times `b` times the powers of x in `c`. -/
theorem gfmul_assoc (a b c : Nibble) : gfmul a (gfmul b c) = gfmul (gfmul a b) c := by
  rw [gfmul_eq_sum_powers b c, gfmul_eq_sum_powers (gfmul a b) c]
  simp only [gfmul_xor, gfmul_cond, gfmul_gfmul_two]

theorem exists_gfmul_eq_one {a : Nibble} (ha : a ≠ 0) : ∃ x, gfmul a x = 1 := by
  revert a; decide

/-- Multiplying by an inverse of `a` takes the factor `a` away. -/
theorem gfmul_cancel_left {a x : Nibble} (hx : gfmul a x = 1) (z : Nibble) : gfmul x (gfmul a z) = z := by
  rw [gfmul_assoc, gfmul_comm x a, hx, one_gfmul]

theorem existsUnique_inverse {a : Nibble} (ha : a ≠ 0) : ∃ x, gfmul a x = 1 ∧ ∀ z, gfmul a z = 1 → z = x := by
  obtain ⟨x, hx⟩ := exists_gfmul_eq_one ha
  refine ⟨x, hx, fun z hz => ?_⟩
  calc z = gfmul x (gfmul a z) := (gfmul_cancel_left hx z).symm
    _ = x := by rw [hz, gfmul_one]

theorem eq_zero_or_eq_zero_of_gfmul_eq_zero {a b : Nibble} (h : gfmul a b = 0) : a = 0 ∨ b = 0 := by
  refine or_iff_not_imp_left.2 fun ha => ?_
  obtain ⟨x, hx⟩ := exists_gfmul_eq_one ha
  calc b = gfmul x (gfmul a b) := (gfmul_cancel_left hx b).symm
    _ = 0 := by rw [h, gfmul_zero]

/-- Settles O17: the laws above, and each of the eight listed pairs has product 1. -/
theorem gfmulIsFieldProduct : Obligations.GfmulIsFieldProduct := by
  refine ⟨gfmul_comm, fun x => ⟨zero_gfmul x, one_gfmul x⟩, gfmul_assoc, gfmul_xor,
    fun _ ha => existsUnique_inverse ha, fun p hp => ?_, fun _ _ h => eq_zero_or_eq_zero_of_gfmul_eq_zero h⟩
  fin_cases hp <;> decide

/-! ### The product table (43_gf16.md R142, R145) -/

theorem gfmul_eq_tableEntry (a b : Nibble) : gfmul a b = tableEntry gfmulTable a.toNat b.toNat := by
  revert a b; decide

theorem gfmulShiftReduce_eq_gfmul (a b : Nibble) : gfmulShiftReduce a b = gfmul a b := by
  revert a b; decide

/-- The address `{a, b}` selects row `a` and column `b` (20_memory.md R52). -/
theorem romRead_gfmul_append (a b : Nibble) : romRead (.gfmul (a ++ b)) = gfmul a b :=
  calc romRead (.gfmul (a ++ b)) = tableEntry gfmulTable a.toNat b.toNat := by
        rw [romRead, BitVec.extractLsb'_append_eq_left, BitVec.extractLsb'_append_eq_right]
    _ = gfmul a b := (gfmul_eq_tableEntry a b).symm

/-- Settles O16: the printed table is the model's own, entry by entry the product. -/
theorem gfmulFormsAgreeWithTable : Obligations.GfmulFormsAgreeWithTable := fun a b =>
  ⟨gfmul_eq_tableEntry a b, gfmulShiftReduce_eq_gfmul a b, romRead_gfmul_append a b⟩

/-- The bit equation of the product with 9 in R145: 9 is 8 plus 1. -/
theorem nine_gfmul (x : Nibble) : gfmul 9 x = gfmul 8 x ^^^ x :=
  calc gfmul 9 x = gfmul 8 x ^^^ gfmul 1 x := xor_gfmul 8 1 x
    _ = gfmul 8 x ^^^ x := by rw [one_gfmul]

theorem two_gfmul (x : Nibble) :
    gfmul 2 x = BitVec.ofBool x[2] ++ BitVec.ofBool x[1] ++ BitVec.ofBool (x[0] ^^ x[3]) ++ BitVec.ofBool x[3] := by
  revert x; decide

theorem four_gfmul (x : Nibble) :
    gfmul 4 x = BitVec.ofBool x[1] ++ BitVec.ofBool (x[0] ^^ x[3]) ++ BitVec.ofBool (x[2] ^^ x[3]) ++
      BitVec.ofBool x[2] := by
  revert x; decide

theorem eight_gfmul (x : Nibble) :
    gfmul 8 x = BitVec.ofBool (x[0] ^^ x[3]) ++ BitVec.ofBool (x[2] ^^ x[3]) ++ BitVec.ofBool (x[1] ^^ x[2]) ++
      BitVec.ofBool x[1] := by
  revert x; decide

/-- Settles O18: the rows are rows 2, 4 and 9 of the product table. -/
theorem constantMultipliersFollowBitEquations : Obligations.ConstantMultipliersFollowBitEquations := fun x =>
  ⟨gfmul_eq_tableEntry 2 x, gfmul_eq_tableEntry 4 x, gfmul_eq_tableEntry 9 x, two_gfmul x, four_gfmul x, nine_gfmul x,
    eight_gfmul x⟩

/-! ### The command (43_gf16.md R144) -/

/-- `GFMUL` is well formed exactly when both its operands are nibbles (30_encoding.md R72). -/
theorem gfmul_wellFormed (a b : Word) : (Instr.gfmul a b).wellFormed = (nibbleLegal a && nibbleLegal b) := rfl

/-- Settles O15: two legal nibbles read their product from the ROM, and a field above 0xF takes the range fault. -/
theorem gfmulMultipliesNibbles : Obligations.GfmulMultipliesNibbles := by
  refine fun a b s hs => ⟨decode_cmdWord .gfmul a b, fun ha hb => ?_, fun hab => exec_of_illFormed hs ?_⟩
  · have hw : (Instr.gfmul a b).wellFormed = true := by
      rw [gfmul_wellFormed, nibbleLegal_of_le ha, nibbleLegal_of_le hb, Bool.and_self]
    exact exec_of_operandResult (i := .gfmul a b) (show ResultOfOperands .gfmul by decide) hw hs
      (congrArg zext16 (romRead_gfmul_append (nibbleOf a) (nibbleOf b)))
  · rw [gfmul_wellFormed]
    rcases hab with ha | hb
    · rw [nibbleLegal_of_lt ha, Bool.false_and]
    · rw [nibbleLegal_of_lt hb, Bool.and_false]

end Sys2Proof.Machine
end

section
/-!
PROOFS. The Round Transform family (44_round_transform.md). Both column transforms are one matrix `[[p, q], [q, p]]` on
each column (`mixColumns_eq_circulantColumns`, `invMixColumns_eq_circulantColumns`), and two such matrices compose to a
third whose coefficients are sums of products: the transforms are linear because the product distributes, and undo each
other because `1*9 ^ 4*2 = 1` and `1*2 ^ 4*9 = 0`. The laws of the other operations hold slot by slot.
-/

namespace Sys2Proof.Machine

/-! ### ShiftRow slot by slot (44_round_transform.md R162) -/

@[simp] theorem nibble_zero_shiftRow (w : Word) : nibble (shiftRow w) 0 = nibble w 0 := nibble_zero_pack4 _ _ _ _

@[simp] theorem nibble_one_shiftRow (w : Word) : nibble (shiftRow w) 1 = nibble w 1 := nibble_one_pack4 _ _ _ _

@[simp] theorem nibble_two_shiftRow (w : Word) : nibble (shiftRow w) 2 = nibble w 3 := nibble_two_pack4 _ _ _ _

@[simp] theorem nibble_three_shiftRow (w : Word) : nibble (shiftRow w) 3 = nibble w 2 := nibble_three_pack4 _ _ _ _

@[simp] theorem shiftRow_shiftRow (w : Word) : shiftRow (shiftRow w) = w :=
  calc shiftRow (shiftRow w) = pack4 (nibble w 0) (nibble w 1) (nibble w 2) (nibble w 3) := by simp [shiftRow]
    _ = w := pack4_nibble w

/-- One changes the place of a nibble and the other its value, so their order does not matter (R170). -/
theorem shiftRow_subNibbles (w : Word) (inverse : Bool) :
    shiftRow (subNibbles w inverse) = subNibbles (shiftRow w) inverse := by
  simp [shiftRow, subNibbles]

/-- The result in the order of its bit positions (R162). -/
theorem shiftRow_eq_append (w : Word) :
    shiftRow w = w.extractLsb' 12 4 ++ w.extractLsb' 0 4 ++ w.extractLsb' 4 4 ++ w.extractLsb' 8 4 := rfl

/-! ### The column transforms (44_round_transform.md R164, R165) -/

/-- A row `(p, q)` of a matrix times a column `(x, y)`. -/
def rowProduct (p q x y : Nibble) : Nibble := gfmul p x ^^^ gfmul q y

/-- The matrix `[[p, q], [q, p]]` on each column of a word. -/
def circulantColumns (p q : Nibble) (w : Word) : Word :=
  pack4 (rowProduct p q (nibble w 0) (nibble w 2)) (rowProduct p q (nibble w 1) (nibble w 3))
    (rowProduct q p (nibble w 0) (nibble w 2)) (rowProduct q p (nibble w 1) (nibble w 3))

theorem rowProduct_one_left (q x y : Nibble) : rowProduct 1 q x y = x ^^^ gfmul q y := by
  rw [rowProduct, one_gfmul]

theorem rowProduct_swap (p q x y : Nibble) : rowProduct q p y x = rowProduct p q x y := BitVec.xor_comm _ _

theorem rowProduct_one_right (p x y : Nibble) : rowProduct p 1 x y = y ^^^ gfmul p x :=
  (rowProduct_swap 1 p y x).trans (rowProduct_one_left p y x)

theorem mixColumns_eq_circulantColumns (w : Word) : mixColumns w = circulantColumns 1 4 w := by
  simp only [mixColumns, circulantColumns, rowProduct_one_left, rowProduct_one_right]

theorem invMixColumns_eq_circulantColumns (w : Word) : invMixColumns w = circulantColumns 9 2 w := rfl

/-- A row times the product of a circulant matrix and a column: the product of matrices is associative. -/
theorem rowProduct_rowProduct (p q p' q' x y : Nibble) :
    rowProduct p q (rowProduct p' q' x y) (rowProduct q' p' x y) =
      rowProduct (rowProduct p q p' q') (rowProduct p q q' p') x y := by
  simp only [rowProduct, gfmul_xor, xor_gfmul, gfmul_assoc]
  ac_rfl

/-- The product of two circulant matrices is circulant. -/
theorem circulantColumns_circulantColumns (p q p' q' : Nibble) (w : Word) :
    circulantColumns p q (circulantColumns p' q' w) =
      circulantColumns (rowProduct p q p' q') (rowProduct p q q' p') w := by
  simp only [circulantColumns, nibble_zero_pack4, nibble_one_pack4, nibble_two_pack4, nibble_three_pack4,
    rowProduct_rowProduct, rowProduct_swap p q]

theorem rowProduct_one_zero (x y : Nibble) : rowProduct 1 0 x y = x := by
  rw [rowProduct_one_left, zero_gfmul]
  exact BitVec.xor_zero

theorem rowProduct_zero_one (x y : Nibble) : rowProduct 0 1 x y = y :=
  (rowProduct_swap 1 0 y x).trans (rowProduct_one_zero y x)

@[simp] theorem circulantColumns_identity (w : Word) : circulantColumns 1 0 w = w := by
  simp only [circulantColumns, rowProduct_one_zero, rowProduct_zero_one, pack4_nibble]

/-- A circulant matrix undoes another when their product is the identity. -/
theorem circulantColumns_cancel {p q p' q' : Nibble} (hdiagonal : rowProduct p q p' q' = 1)
    (hoff : rowProduct p q q' p' = 0) (w : Word) : circulantColumns p q (circulantColumns p' q' w) = w := by
  rw [circulantColumns_circulantColumns, hdiagonal, hoff, circulantColumns_identity]

theorem invMixColumns_mixColumns (w : Word) : invMixColumns (mixColumns w) = w := by
  rw [invMixColumns_eq_circulantColumns, mixColumns_eq_circulantColumns]
  exact circulantColumns_cancel (by decide) (by decide) w

theorem mixColumns_invMixColumns (w : Word) : mixColumns (invMixColumns w) = w := by
  rw [invMixColumns_eq_circulantColumns, mixColumns_eq_circulantColumns]
  exact circulantColumns_cancel (by decide) (by decide) w

theorem nibble_xor (u v : Word) (i : Fin 4) : nibble (u ^^^ v) i = nibble u i ^^^ nibble v i := by
  simp only [nibble_eq_extract, BitVec.extractLsb'_xor]

theorem pack4_xor (n0 n1 n2 n3 m0 m1 m2 m3 : Nibble) :
    pack4 (n0 ^^^ m0) (n1 ^^^ m1) (n2 ^^^ m2) (n3 ^^^ m3) = pack4 n0 n1 n2 n3 ^^^ pack4 m0 m1 m2 m3 := by
  have hparts : ((n0 ++ n2 ++ n1 ++ n3) ^^^ (m0 ++ m2 ++ m1 ++ m3) : BitVec (4 + 4 + 4 + 4)) =
      (n0 ^^^ m0) ++ (n2 ^^^ m2) ++ (n1 ^^^ m1) ++ (n3 ^^^ m3) := by simp only [BitVec.xor_append]
  exact hparts.symm

theorem rowProduct_xor (p q x y x' y' : Nibble) :
    rowProduct p q (x ^^^ x') (y ^^^ y') = rowProduct p q x y ^^^ rowProduct p q x' y' := by
  simp only [rowProduct, gfmul_xor]
  ac_rfl

/-- Each slot of the result is linear in the slots of the word (R170). -/
theorem circulantColumns_xor (p q : Nibble) (u v : Word) :
    circulantColumns p q (u ^^^ v) = circulantColumns p q u ^^^ circulantColumns p q v := by
  simp only [circulantColumns, nibble_xor, rowProduct_xor, pack4_xor]

theorem mixColumns_xor (u v : Word) : mixColumns (u ^^^ v) = mixColumns u ^^^ mixColumns v := by
  simp only [mixColumns_eq_circulantColumns, circulantColumns_xor]

theorem invMixColumns_xor (u v : Word) : invMixColumns (u ^^^ v) = invMixColumns u ^^^ invMixColumns v :=
  circulantColumns_xor 9 2 u v

/-- MixColumns of one column, as the function `mixbyte` of a byte (R164). -/
def mixByte (b : Byte) : Byte :=
  (b.extractLsb' 4 4 ^^^ gfmul 4 (b.extractLsb' 0 4)) ++ (b.extractLsb' 0 4 ^^^ gfmul 4 (b.extractLsb' 4 4))

theorem mixByte_append (x y : Nibble) : mixByte (x ++ y) = (x ^^^ gfmul 4 y) ++ (y ^^^ gfmul 4 x) := by
  rw [mixByte, BitVec.extractLsb'_append_eq_left, BitVec.extractLsb'_append_eq_right]

/-- A word of four slots is a word of two columns. -/
theorem pack4_eq_columns (n0 n1 n2 n3 : Nibble) : pack4 n0 n1 n2 n3 = (n0 ++ n2) ++ (n1 ++ n3) :=
  BitVec.append_assoc

theorem mixColumns_eq_mixByte (w : Word) : mixColumns w = mixByte (highByte w) ++ mixByte (lowByte w) := by
  rw [← nibble_append_eq_highByte, ← nibble_append_eq_lowByte, mixByte_append, mixByte_append, mixColumns,
    pack4_eq_columns]

/-- Settles O24: the definitions in the order of the bit positions, MixColumns column by column, and the products of the
two matrices, which are the identity. -/
theorem mixColumnsTransformsInvertEachOther : Obligations.MixColumnsTransformsInvertEachOther :=
  ⟨fun _ => rfl, mixColumns_eq_mixByte, fun _ => rfl,
    fun w => ⟨invMixColumns_mixColumns w, mixColumns_invMixColumns w⟩, by decide, by decide⟩

/-- Adding a key twice removes it (R170). -/
theorem addRoundKey_addRoundKey (w k : Word) : addRoundKey (addRoundKey w k) k = w := by
  simp [addRoundKey]

/-- The substitution of zero is not zero, as that of a linear map would be (R170). -/
theorem subNibbles_zero_ne (inverse : Bool) :
    subNibbles (0 ^^^ 0) inverse ≠ subNibbles 0 inverse ^^^ subNibbles 0 inverse := by
  cases inverse <;> decide

/-- Settles O25: each law slot by slot, and zero against the linearity of SubNibbles. -/
theorem roundTransformLaws : Obligations.RoundTransformLaws :=
  ⟨fun w k => ⟨rfl, addRoundKey_addRoundKey w k, BitVec.xor_comm w k, BitVec.xor_zero, BitVec.xor_self⟩,
    fun w => ⟨shiftRow_shiftRow w, invMixColumns_mixColumns w⟩, shiftRow_subNibbles,
    fun u v => ⟨mixColumns_xor u v, invMixColumns_xor u v⟩, fun inverse => ⟨0, 0, subNibbles_zero_ne inverse⟩⟩

/-! ### The functions of a key byte (44_round_transform.md R168; 45_key_schedule.md R191, R193) -/

theorem rotNib_append (x y : Nibble) : rotNib (x ++ y) = y ++ x := by
  rw [rotNib, BitVec.extractLsb'_append_eq_left, BitVec.extractLsb'_append_eq_right]

theorem subByte_append (x y : Nibble) : subByte (x ++ y) = substitute x false ++ substitute y false := by
  rw [subByte, BitVec.extractLsb'_append_eq_left, BitVec.extractLsb'_append_eq_right]

@[simp] theorem rotNib_rotNib (b : Byte) : rotNib (rotNib b) = b :=
  calc rotNib (b.extractLsb' 0 4 ++ b.extractLsb' 4 4) = b.extractLsb' 4 4 ++ b.extractLsb' 0 4 := rotNib_append _ _
    _ = b := BitVec.extractLsb'_append_extractLsb'

/-- Both halves of a byte go through the same table, so it does not matter when they change places (R193). -/
theorem subByte_rotNib (b : Byte) : subByte (rotNib b) = rotNib (subByte b) :=
  (subByte_append _ _).trans (rotNib_append _ _).symm

theorem g_eq_append (b : Byte) : g b = substitute (b.extractLsb' 0 4) false ++ substitute (b.extractLsb' 4 4) false :=
  subByte_append _ _

/-- SubNibbles of a word is SubByte of each of its bytes. -/
theorem highByte_subNibbles (w : Word) : highByte (subNibbles w false) = subByte (highByte w) := by
  simp only [← nibble_append_eq_highByte, subByte_append, nibble_subNibbles]

theorem lowByte_subNibbles (w : Word) : lowByte (subNibbles w false) = subByte (lowByte w) := by
  simp only [← nibble_append_eq_lowByte, subByte_append, nibble_subNibbles]

@[simp] theorem lowByte_zext16 (b : Byte) : lowByte (zext16 b) = b :=
  (BitVec.extractLsb'_setWidth_of_le (by decide)).trans BitVec.extractLsb'_eq_self

@[simp] theorem highByte_zext16 (b : Byte) : highByte (zext16 b) = 0 := by
  ext i hi
  simp [highByte, zext16]

/-- Settles O26: the bytes of `SubNibbles(zext(b))` are SubByte of `b` and of 0, and halves that change places. -/
theorem keyByteFunctions : Obligations.KeyByteFunctions := by
  refine fun b => ⟨rfl, rotNib_rotNib b, rfl, ?_, ?_, rfl, subByte_rotNib b, g_eq_append b⟩
  · exact (lowByte_subNibbles (zext16 b)).trans (congrArg subByte (lowByte_zext16 b))
  · calc highByte (subNibbles (zext16 b) false) = subByte 0 := by rw [highByte_subNibbles, highByte_zext16]
      _ = 0x99 := by decide

/-! ### The commands (44_round_transform.md R161, R163, R166, R167, R169) -/

/-- Settles O19: every pair of operands is legal and the result is their sum. -/
theorem arkXorsItsOperands : Obligations.ArkXorsItsOperands := fun a b _ hs =>
  ⟨decode_cmdWord .ark a b, exec_of_operandResult (i := .ark a b) (show ResultOfOperands .ark by decide) rfl hs rfl⟩

/-- Settles O20: every operand is legal and the result is its `ShiftRow`, read in bit ranges. -/
theorem shrowSwapsSecondRow : Obligations.ShrowSwapsSecondRow := fun a b _ hs =>
  ⟨decode_cmdWord .shrow a b,
    exec_of_operandResult (i := .shrow a) (show ResultOfOperands .shrow by decide) rfl hs (shiftRow_eq_append a),
    rfl, shiftRow_shiftRow a⟩

/-- Settles O21: every operand is legal and the result is its `MixColumns`, whose slots stand at those bit ranges. -/
theorem mixcolMixesColumns : Obligations.MixcolMixesColumns := fun a b _ hs =>
  ⟨decode_cmdWord .mixcol a b,
    exec_of_operandResult (i := .mixcol a) (show ResultOfOperands .mixcol by decide) rfl hs rfl⟩

/-- Settles O22: every operand is legal and the result is its `InvMixColumns`, whose slots stand at those bit ranges. -/
theorem imixcolUnmixesColumns : Obligations.ImixcolUnmixesColumns := fun a b _ hs =>
  ⟨decode_cmdWord .imixcol a b,
    exec_of_operandResult (i := .imixcol a) (show ResultOfOperands .imixcol by decide) rfl hs rfl⟩

/-- The low nibble of a byte operand, read from the operand field. -/
theorem byteOf_low (a : Word) : (byteOf a).extractLsb' 0 4 = a.extractLsb' 0 4 :=
  BitVec.extractLsb'_extractLsb'_of_le (by decide)

/-- The high nibble of a byte operand, read from the operand field. -/
theorem byteOf_high (a : Word) : (byteOf a).extractLsb' 4 4 = a.extractLsb' 4 4 :=
  BitVec.extractLsb'_extractLsb'_of_le (by decide)

theorem rotNib_byteOf (a : Word) : rotNib (byteOf a) = a.extractLsb' 0 4 ++ a.extractLsb' 4 4 := by
  rw [rotNib, byteOf_low, byteOf_high]

/-- Settles O23: a legal byte is rotated, and a field above 0xFF takes the range fault. -/
theorem rotnibSwapsNibbles : Obligations.RotnibSwapsNibbles := fun a b _ hs =>
  ⟨decode_cmdWord .rotnib a b,
    fun ha => exec_of_operandResult (i := .rotnib a) (show ResultOfOperands .rotnib by decide) (byteLegal_of_le ha) hs
      (congrArg zext16 (rotNib_byteOf a)),
    fun ha => exec_of_illFormed hs (byteLegal_of_lt ha)⟩

end Sys2Proof.Machine
end

section
/-!
PROOFS. The Key Schedule family (45_key_schedule.md). `GFUNC` is a result command over a byte operand, with `g` in nibble
form (`g_eq_append`). `EXPAND` is one write of the round-key sequence (`exec_expand_of_accepting`), and a sequence gives
its key back as `K0` (`expandKey_k0`).
-/

namespace Sys2Proof.Machine

/-! ### GFUNC (45_key_schedule.md R195) -/

theorem g_byteOf (a : Word) :
    g (byteOf a) = substitute (a.extractLsb' 0 4) false ++ substitute (a.extractLsb' 4 4) false := by
  rw [g_eq_append, byteOf_low, byteOf_high]

/-- Settles O27: a legal byte goes through `g`, and a field above 0xFF takes the range fault. -/
theorem gfuncComputesG : Obligations.GfuncComputesG := fun a b _ hs =>
  ⟨decode_cmdWord .gfunc a b,
    fun ha => exec_of_operandResult (i := .gfunc a) (show ResultOfOperands .gfunc by decide) (byteLegal_of_le ha) hs
      (congrArg zext16 (g_byteOf a)),
    fun ha => exec_of_illFormed hs (byteLegal_of_lt ha)⟩

/-! ### The schedule (45_key_schedule.md R190, R194, R197) -/

/-- Different keys give different sequences, since each sequence begins with its key (R197). -/
theorem expandKey_injective {k k' : Word} (h : expandKey k = expandKey k') : k = k' :=
  calc k = (expandKey k).k0 := (expandKey_k0 k).symm
    _ = (expandKey k').k0 := congrArg RoundKeys.k0 h
    _ = k' := expandKey_k0 k'

/-- Settles O28: the schedule is the printed one by definition, and its first round key is the key. -/
theorem expandKeyFollowsSchedule : Obligations.ExpandKeyFollowsSchedule :=
  ⟨rfl, rfl, fun key => ⟨rfl, rfl, rfl, expandKey_k0 key⟩, fun _ _ => expandKey_injective⟩

/-! ### EXPAND (45_key_schedule.md R196) -/

/-- A write of the round keys replaces the whole sequence before it (R196). -/
@[simp] theorem writeRoundKeys_writeRoundKeys (k k' : RoundKeys) (s : State) :
    writeRoundKeys k (writeRoundKeys k' s) = writeRoundKeys k s := rfl

/-- The same `EXPAND` again leaves the state it reached (R196). -/
theorem exec_expand_again {s : State} (hs : s.Accepting) (key : Word) :
    exec (.expand key) (writeRoundKeys (expandKey key) s) = .next (writeRoundKeys (expandKey key) s) := by
  have hs' : (writeRoundKeys (expandKey key) s).fault = false := hs
  rw [exec_expand_of_accepting hs', writeRoundKeys_writeRoundKeys]

/-- Settles O29: the one write of the round keys, its ports, and the same write again. -/
theorem expandLoadsRoundKeys : Obligations.ExpandLoadsRoundKeys := by
  intro a b s hs
  refine ⟨decode_cmdWord .expand a b, writeRoundKeys (expandKey a) s, exec_expand_of_accepting hs a, rfl,
    writeRoundKeys_y _ s, writeRoundKeys_yv _ s, exec_expand_again hs a, ?_⟩
  rw [ports_writeRoundKeys]
  exact ⟨rfl, rfl, rfl, rfl⟩

end Sys2Proof.Machine
end

section
/-!
PROOFS. The Cipher Pipeline family (46_cipher_pipeline.md). `ENC` and `DEC` are the two commands that read the stored
round keys, so what they do is said once for both (`exec_cipher_of_kv`). Decrypt undoes the stages of Encrypt from the
last to the first (`decrypt_encrypt`), and a result replaces the one before it (`writeResult_writeResult`), so a chain of
stage commands ends in the state that one command reaches.
-/

namespace Sys2Proof.Machine

/-! ### ENC and DEC on the stored round keys (46_cipher_pipeline.md R212, R214, R216) -/

/-- With round keys stored, ENC and DEC write their result and change nothing else. -/
theorem exec_cipher_of_kv {i : Instr} (hi : ReadsRoundKeys i) {s : State} (hs : s.Accepting) (hk : s.kv = true) :
    exec i s = .next (writeResult (resultValue (readRoundKeys s) i) s) := by
  have hm : i.mnemonic ≠ .expand := by rcases hi with h | h <;> simp [h]
  exact exec_of_result hs hm (wellFormed_of_readsRoundKeys hi) fun _ => hk

/-- Settles O30: ENC is legal on every block, and reads the keys or takes NO_KEY. -/
theorem encRunsEncryptPipeline : Obligations.EncRunsEncryptPipeline := fun a b _ hs =>
  ⟨decode_cmdWord .enc a b, exec_cipher_of_kv (i := .enc a) (.inl rfl) hs,
    exec_of_noKey (i := .enc a) hs (.inl rfl)⟩

/-- Settles O31: DEC is legal on every block, and reads the keys, whichever they are, or takes NO_KEY. -/
theorem decRunsDecryptPipeline : Obligations.DecRunsDecryptPipeline := fun a b _ hs =>
  ⟨decode_cmdWord .dec a b, exec_cipher_of_kv (i := .dec a) (.inr rfl) hs,
    exec_of_noKey (i := .dec a) hs (.inr rfl)⟩

/-! ### Decrypt and Encrypt undo each other (46_cipher_pipeline.md R215) -/

/-- Each stage of Decrypt meets the stage of Encrypt that it undoes, the last one first. -/
theorem decrypt_encrypt (block : Word) (k : RoundKeys) : decrypt (encrypt block k) k = block := by
  simp only [encrypt, decrypt, addRoundKey_addRoundKey, shiftRow_shiftRow, subNibbles_cancel substitute_leftInverse,
    invMixColumns_mixColumns]

/-- Each stage of Encrypt meets the stage of Decrypt that it undoes, the last one first. -/
theorem encrypt_decrypt (block : Word) (k : RoundKeys) : encrypt (decrypt block k) k = block := by
  simp only [encrypt, decrypt, addRoundKey_addRoundKey, shiftRow_shiftRow, subNibbles_cancel substitute_rightInverse,
    mixColumns_invMixColumns]

/-- `EXPAND` and then two of ENC and DEC, the second on the Y of the first: both read the keys of the `EXPAND`, so the
second restores the block if it undoes the first under those keys. -/
theorem exec_expand_cipher_cipher {i : Instr} (hi : ReadsRoundKeys i) {j : Word → Instr}
    (hj : ∀ y, ReadsRoundKeys (j y)) {key block : Word}
    (hback : resultValue (expandKey key) (j (resultValue (expandKey key) i)) = block) {s : State} (hs : s.Accepting) :
    ∃ t u v, exec (.expand key) s = .next t ∧ exec i t = .next u ∧ exec (j u.y) u = .next v ∧ v.y = block :=
  ⟨_, _, _, exec_expand_of_accepting hs key, exec_cipher_of_kv hi hs rfl, exec_cipher_of_kv (hj _) hs rfl, hback⟩

/-- Settles O32: the stages undo each other under any keys, and on the core both commands read the same ones. -/
theorem cipherRoundTrip : Obligations.CipherRoundTrip :=
  ⟨fun block k => ⟨decrypt_encrypt block k, encrypt_decrypt block k⟩,
    fun key block => decrypt_encrypt block (expandKey key),
    fun key p _ hs => exec_expand_cipher_cipher (i := .enc p) (.inl rfl) (j := .dec) (fun _ => .inr rfl)
      (decrypt_encrypt p (expandKey key)) hs,
    fun key c _ hs => exec_expand_cipher_cipher (i := .dec c) (.inr rfl) (j := .enc) (fun _ => .inl rfl)
      (encrypt_decrypt c (expandKey key)) hs⟩

/-! ### The cipher commands as chains of stage commands (46_cipher_pipeline.md R217) -/

/-- A result replaces the one before it. -/
@[simp] theorem writeResult_writeResult (r r' : Word) (s : State) :
    writeResult r (writeResult r' s) = writeResult r s := rfl

/-- A stage on the result of the stage before: the host's chain is one write of its last result. -/
theorem accept_writeResult_of_result {s : State} (hs : s.Accepting) (r r' : Word) :
    accept (writeResult r s) (writeResult r') = .next (writeResult r' s) := by
  have hs' : (writeResult r s).Accepting := hs
  rw [accept_of_accepting hs', writeResult_writeResult]

/-- What the host sees after each stage: the result, and the key ports as before. -/
theorem ports_of_results (rs : List Word) (s : State) : ∀ t ∈ rs.map (writeResult · s),
    t.ports.y = some t.y ∧ t.ports.rk0 = s.ports.rk0 ∧ t.ports.rk1 = s.ports.rk1 ∧ t.ports.rk2 = s.ports.rk2 := by
  simp

/-- Settles O33: each stage command writes its stage's value over the one before it, so the last state is the one write
of the eighth value, which is that of ENC or DEC. -/
theorem cipherEqualsItsStageCommands : Obligations.CipherEqualsItsStageCommands := by
  intro a s hs hk
  obtain ⟨-, -, hkeys, -⟩ := portsShowTheirElements s
  have hfirst (r : Word) := accept_of_accepting hs (writeResult r)
  have hnext := accept_writeResult_of_result hs
  refine ⟨hkeys hk, ?_, ?_⟩
  · exact ⟨_, _, _, _, _, _, _, _, (exec_ark _ _ _).trans (hfirst _), (exec_subnib _ _).trans (hnext _ _),
      (exec_shrow _ _).trans (hnext _ _), (exec_mixcol _ _).trans (hnext _ _), (exec_ark _ _ _).trans (hnext _ _),
      (exec_subnib _ _).trans (hnext _ _), (exec_shrow _ _).trans (hnext _ _), (exec_ark _ _ _).trans (hnext _ _),
      exec_cipher_of_kv (i := .enc a) (.inl rfl) hs hk, ports_of_results [_, _, _, _, _, _, _, _] s,
      rfl, rfl, rfl, rfl, rfl, rfl, rfl, rfl⟩
  · exact ⟨_, _, _, _, _, _, _, _, (exec_ark _ _ _).trans (hfirst _), (exec_shrow _ _).trans (hnext _ _),
      (exec_isubnib _ _).trans (hnext _ _), (exec_ark _ _ _).trans (hnext _ _), (exec_imixcol _ _).trans (hnext _ _),
      (exec_shrow _ _).trans (hnext _ _), (exec_isubnib _ _).trans (hnext _ _), (exec_ark _ _ _).trans (hnext _ _),
      exec_cipher_of_kv (i := .dec a) (.inr rfl) hs hk, ports_of_results [_, _, _, _, _, _, _, _] s,
      rfl, rfl, rfl, rfl, rfl, rfl, rfl, rfl⟩

end Sys2Proof.Machine
end

section
/-!
PROOFS. Faults (60_exceptions.md). The cause a word can meet is a function of the word alone (`causeOfWord`), and a word
that takes a fault raises that cause and does nothing else (`present_takes_fault`): so no word has two causes, and a fault
is precise. A faulted core answers every input but Reset with its own state (`present_of_faulted`).
-/

namespace Sys2Proof.Machine

/-! ### The cause of a word (60_exceptions.md R230, R234) -/

/-- The one cause of a fault that a word can meet, if there is one: ILLEGAL_OP when it is no command, OPERAND_RANGE when
its operands are out of range, NO_KEY when it reads the round keys. -/
def causeOfWord (w : CmdWord) : Option Cause :=
  match decode w with
  | .error _ => some .illegalOp
  | .ok i => if i.wellFormed = false then some .operandRange else if ReadsRoundKeys i then some .noKey else none

theorem causeOfWord_of_reserved {w : CmdWord} (hr : opField w ∈ reservedOpcodes) :
    causeOfWord w = some .illegalOp := by
  simp [causeOfWord, decode, (mnemonicOf_eq_none _).2 hr]

theorem causeOfWord_of_decode {w : CmdWord} {i : Instr} (hd : decode w = .ok i) :
    causeOfWord w =
      if i.wellFormed = false then some .operandRange else if ReadsRoundKeys i then some .noKey else none := by
  simp [causeOfWord, hd]

theorem causeOfWord_of_illFormed {w : CmdWord} {i : Instr} (hd : decode w = .ok i) (hw : i.wellFormed = false) :
    causeOfWord w = some .operandRange := by rw [causeOfWord_of_decode hd, if_pos hw]

theorem causeOfWord_of_readsRoundKeys {w : CmdWord} {i : Instr} (hd : decode w = .ok i) (hi : ReadsRoundKeys i) :
    causeOfWord w = some .noKey := by
  have hw := wellFormed_of_readsRoundKeys hi
  rw [causeOfWord_of_decode hd, if_neg (by simp [hw]), if_pos hi]

/-- Only a word that is no command meets ILLEGAL_OP (60_exceptions.md R231). -/
theorem decode_ne_ok_of_illegalOp {w : CmdWord} (h : causeOfWord w = some .illegalOp) (i : Instr) :
    decode w ≠ .ok i := by
  intro hd
  rw [causeOfWord_of_decode hd] at h
  split_ifs at h <;> simp at h

/-- Only the word of an ill-formed command meets OPERAND_RANGE (60_exceptions.md R232). -/
theorem exists_illFormed_of_operandRange {w : CmdWord} (h : causeOfWord w = some .operandRange) :
    ∃ i, decode w = .ok i ∧ i.wellFormed = false := by
  cases hd : decode w with
  | error => simp [causeOfWord, hd] at h
  | ok i =>
    rw [causeOfWord_of_decode hd] at h
    split_ifs at h with hw hi
    · exact ⟨i, rfl, hw⟩
    · simp at h

/-- Only the word of a command that reads the round keys meets NO_KEY (60_exceptions.md R233). -/
theorem exists_readsRoundKeys_of_noKey {w : CmdWord} (h : causeOfWord w = some .noKey) :
    ∃ i, decode w = .ok i ∧ ReadsRoundKeys i := by
  cases hd : decode w with
  | error => simp [causeOfWord, hd] at h
  | ok i =>
    rw [causeOfWord_of_decode hd] at h
    split_ifs at h with hw hi
    · simp at h
    · exact ⟨i, rfl, hi⟩

/-- A command that can be ill formed is one of the eight with a restricted operand (60_exceptions.md R232). -/
theorem mnemonic_of_illFormed {i : Instr} (hw : i.wellFormed = false) :
    i.mnemonic ∈ ([.nib, .hi2, .lo2, .sbox, .isbox, .gfmul, .rotnib, .gfunc] : List Mnemonic) := by
  cases i with
  | nib | hi2 | lo2 | sbox | isbox | gfmul | rotnib | gfunc => simp [Instr.mnemonic]
  | _ => simp [Instr.wellFormed] at hw

theorem not_readsRoundKeys_of_illFormed {i : Instr} (hw : i.wellFormed = false) : ¬ ReadsRoundKeys i := fun hi => by
  simp [wellFormed_of_readsRoundKeys hi] at hw

/-! ### Taking a fault (60_exceptions.md R236, R237) -/

/-- A word that takes a fault raises its own cause, and nothing else happens in the step. -/
theorem present_takes_fault {w : CmdWord} {s t : State} (hs : s.Accepting) (h : present (.cmd w) s = .next t)
    (ht : t.fault = true) : ∃ c, t = raise c s ∧ causeOfWord w = some c := by
  cases present_case_of_next h with
  | exec _ i _ hd hc =>
    cases hc with
    | ignored hf => simp [hs] at hf
    | result | keys => simp [hs] at ht
    | operandRange _ hw => exact ⟨_, rfl, causeOfWord_of_illFormed hd hw⟩
    | noKey _ hi _ => exact ⟨_, rfl, causeOfWord_of_readsRoundKeys hd hi⟩
  | ignored _ hf => simp [hs] at hf
  | illegalOp _ hr _ => exact ⟨_, rfl, causeOfWord_of_reserved hr⟩

theorem Cause.code_cases (c : Cause) : c.code = 1 ∨ c.code = 2 ∨ c.code = 3 := by
  cases c <;> simp [Cause.code]

/-- Settles O47: the next state is the one before with a cause raised. -/
theorem faultsArePrecise : Obligations.FaultsArePrecise := by
  intro w s t hs h ht
  obtain ⟨c, rfl, -⟩ := present_takes_fault hs h ht
  exact ⟨rfl, c.code_cases⟩

/-- Reset has priority over the command port (60_exceptions.md R234). -/
theorem input_of_rst {p : Pins} (h : p.rst = true) : p.input = .reset := by simp [Pins.input, h]

/-- Settles O46: the cause is a function of the word, and each cause says what the word decodes to. -/
theorem atMostOneFaultCause : Obligations.AtMostOneFaultCause := by
  refine ⟨fun w s s' t t' hs hs' h h' ht ht' => ?_, fun w s t hs h ht => ?_, fun w i _ hw => ?_,
    fun a b s hs ha _ => ?_, fun p s hp => by rw [input_of_rst hp]⟩
  · obtain ⟨c, rfl, hc⟩ := present_takes_fault hs h ht
    obtain ⟨c', rfl, hc'⟩ := present_takes_fault hs' h' ht'
    obtain rfl : c = c' := Option.some.inj (hc.symm.trans hc')
    rfl
  · obtain ⟨c, rfl, hc⟩ := present_takes_fault hs h ht
    refine ⟨fun hcode => ?_, fun hcode => ?_, fun hcode => ?_⟩
    · obtain rfl : c = .illegalOp := Cause_code_injective hcode
      exact decode_ne_ok_of_illegalOp hc
    · obtain rfl : c = .operandRange := Cause_code_injective hcode
      obtain ⟨i, hd, hw⟩ := exists_illFormed_of_operandRange hc
      exact ⟨i, hd, hw, mnemonic_of_illFormed hw⟩
    · obtain rfl : c = .noKey := Cause_code_injective hcode
      obtain ⟨i, hd, hi⟩ := exists_readsRoundKeys_of_noKey hc
      exact ⟨i, hd, wellFormed_of_readsRoundKeys hi, hi⟩
  · exact not_or.1 (not_readsRoundKeys_of_illFormed hw)
  · have hout : OperandOutOfRange Mnemonic.gfmul.opcode a b := .inr (.inr (.inl ⟨rfl, .inl ha⟩))
    exact present_illFormed_of_accepting (decode_cmdWord .gfmul a b) ((operandOutOfRange_opcode_iff .gfmul a b).1 hout) hs

/-! ### ENC and DEC without keys (60_exceptions.md R233) -/

/-- Only `EXPAND` sets KV (10_state.md R27). -/
theorem ExecCase.kv_of_kv {i : Instr} {s t : State} (hc : ExecCase i s t) (ht : t.kv = true) :
    s.kv = true ∨ i.mnemonic = .expand := by
  cases hc with
  | ignored | result | operandRange | noKey => exact .inl ht
  | keys _ key hi => exact .inr (by rw [hi]; rfl)

/-- Settles O45: ENC and DEC take NO_KEY while `KV = 0`, Reset clears KV, and of the cases of a command only that of
`EXPAND` sets it. -/
theorem cipherWithoutKeysFaults : Obligations.CipherWithoutKeysFaults := by
  refine ⟨fun a i s hs hk hi => ?_, fun s t h => ?_, fun i s t h => (exec_case_of_next h).kv_of_kv⟩
  · have hreads : ReadsRoundKeys i := hi.imp (fun h => by rw [h]; rfl) (fun h => by rw [h]; rfl)
    exact exec_of_noKey hs hreads hk
  · cases present_case_of_next h with
    | reset => exact resetCore_kv s

/-! ### The faulted core (60_exceptions.md R238) -/

/-- While `FAULT = 1` no input but Reset changes the state. -/
theorem present_of_faulted {input : Input} {s : State} (hf : s.fault = true) (hr : input ≠ .reset) :
    present input s = .next s := by
  cases input with
  | reset => exact absurd rfl hr
  | idle => rfl
  | cmd w =>
    rcases decode_cases w with ⟨m, -, hd⟩ | ⟨hres, -⟩
    · exact (present_of_decode hd s).trans (exec_of_faulted hf _)
    · exact (present_of_reserved hres s).trans (accept_of_faulted hf _)

/-- Settles O48: by induction on the inputs, each of which leaves the faulted state as it is. -/
theorem faultedCoreIgnoresCommands : Obligations.FaultedCoreIgnoresCommands := by
  intro inputs s hf hr
  induction inputs with
  | nil => rfl
  | cons input rest ih =>
    obtain ⟨hne, hrest⟩ := List.ne_and_not_mem_of_not_mem_cons hr
    rw [presentAll_cons_of_next (present_of_faulted hf hne.symm)]
    exact ih hrest

end Sys2Proof.Machine
end

section
/-!
PROOFS. Reset (70_reset_and_hazards.md). A Reset step is one update of the state (`resetCore`), whatever stands on the
other pins (`step_of_rst`), and the state it answers accepts commands and holds no keys. No other input brings a flag or
FCODE back to 0 (`PresentCase.keeps_flags`, `PresentCase.keeps_fcode`).
-/

namespace Sys2Proof.Machine

/-! ### What a Reset step does, and what no other input does (70_reset_and_hazards.md R260, R261) -/

/-- Pins with `rst = 1` reset the core and are consumed; the command on them is discarded (R260). -/
theorem step_of_rst {s : State} {p : Pins} {rest : List Pins} (hp : s.pending = p :: rest) (hr : p.rst = true) :
    step s = .next (resetCore { s with pending := rest }) := by
  rw [step, sample_of_cons hp, input_of_rst hr, advance_of_cons hp]
  rfl

theorem raise_fcode_ne_zero (c : Cause) (s : State) : (raise c s).fcode ≠ 0 := Cause_code_ne_zero c

/-- No command brings FCODE back to 0: it writes FCODE only to name a cause (10_state.md R28). -/
theorem ExecCase.keeps_fcode {i : Instr} {s t : State} (hc : ExecCase i s t) (h : s.fcode ≠ 0) : t.fcode ≠ 0 := by
  cases hc with
  | ignored | result | keys => exact h
  | operandRange | noKey => exact raise_fcode_ne_zero _ s

theorem PresentCase.keeps_fcode {input : Input} {s t : State} (hc : PresentCase s input t) (hr : input ≠ .reset)
    (h : s.fcode ≠ 0) : t.fcode ≠ 0 := by
  cases hc with
  | reset => exact absurd rfl hr
  | exec w i t _ ht => exact ht.keeps_fcode h
  | idle | ignored => exact h
  | illegalOp => exact raise_fcode_ne_zero _ s

/-- Settles O49: the Reset step is `resetCore`, which is idempotent, and the other inputs keep each flag and FCODE. -/
theorem resetClearsFromAnyState : Obligations.ResetClearsFromAnyState := by
  refine ⟨fun s p rest hp hr => ⟨_, step_of_rst hp hr, rfl, rfl⟩, fun s => ?_, fun input s t hr h => ?_⟩
  · have hreset (u : State) : present .reset u = .next (resetCore u) := rfl
    rw [presentAll_cons_of_next (hreset s), presentAll_cons_of_next (hreset _), presentAll_cons_of_next (hreset s),
      resetCore_resetCore]
  · have hc := present_case_of_next h
    obtain ⟨hkv, hyv, hfault⟩ := hc.keeps_flags hr
    exact ⟨hkv, hyv, hfault, hc.keeps_fcode hr⟩

/-! ### The commands after a Reset step (70_reset_and_hazards.md R262) -/

/-- A well-formed command that reads no round keys completes in any core that accepts commands, and sets the flag of
what it wrote. -/
theorem exec_keyless_completes {i : Instr} (hi : ¬ ReadsRoundKeys i) (hw : i.wellFormed = true) {s : State}
    (hs : s.Accepting) :
    ∃ t, exec i s = .next t ∧ t.fault = false ∧
      (i.mnemonic ≠ .expand → t.yv = true) ∧ (i.mnemonic = .expand → t.kv = true) := by
  by_cases hm : i.mnemonic = .expand
  · obtain ⟨key, rfl⟩ := eq_expand_of_mnemonic hm
    exact ⟨_, exec_expand_of_accepting hs key, hs, fun h => absurd hm h, fun _ => rfl⟩
  · exact ⟨_, exec_of_result hs hm hw fun h => absurd h hi, hs, fun _ => rfl, fun h => absurd h hm⟩

/-- Settles O52: after Reset the core accepts commands and `KV = 0`, and `EXPAND` stores the keys ENC and DEC read. -/
theorem commandsAvailableAfterReset : Obligations.CommandsAvailableAfterReset := by
  intro s r h
  cases present_case_of_next h with
  | reset =>
    have hs : (resetCore s).Accepting := resetCore_fault s
    exact ⟨fun i henc hdec hw => exec_keyless_completes (not_or.2 ⟨henc, hdec⟩) hw hs, fun i hi key =>
      ⟨⟨_, exec_of_noKey hs hi (resetCore_kv s), rfl, rfl⟩,
        _, _, exec_expand_of_accepting hs key, exec_cipher_of_kv hi hs rfl, rfl, rfl⟩⟩

end Sys2Proof.Machine
end
